-- ==== Sys2Proof/Word.lean ====
section
/-! DEFINITION. The words of CHIP8-CORE: bit 0 is the least significant bit (R8), every value is unsigned. -/

namespace Sys2Proof

/-- A memory cell, a V register, a timer or an 8-bit immediate `nn` (R5, R20, R31, R34). -/
abbrev Byte := BitVec 8

/-- An instruction word, and the width of `pc`, `I` and a stack slot (R5, R23, R26, R28). -/
abbrev Word := BitVec 16

/-- The 12-bit immediate `nnn` of an instruction (R92). -/
abbrev Addr := BitVec 12

/-- The number of a general register, a 4-bit field of the instruction (R20, R92). -/
abbrev RegIdx := BitVec 4

/-- The number of a key, 0 to 15 (R36). -/
abbrev Key := BitVec 4

/-- VF, the register that six instructions also write as a flag (R25). -/
abbrev VF : RegIdx := 15#4

end Sys2Proof
end

