-- ==== Sys2Proof/Syntax.lean ====
section
/-! DEFINITION. The instructions: one constructor per row of `spec/opcode_table.json`, in the table's order (R98). -/

namespace Sys2Proof

/-- An instruction. `x`, `y` are register numbers, `nn` an 8-bit and `nnn` a 12-bit immediate, `n` a count of sprite rows
(R92, R96, R97). `shr` and `shl` carry the `y` of their word, which their meaning ignores (R97; log 11). -/
inductive Instr where
  /-- `00E0`, CLS (R141) -/
  | cls
  /-- `00EE`, RET (R151) -/
  | ret
  /-- `1NNN`, JP nnn (R152) -/
  | jp (nnn : Addr)
  /-- `2NNN`, CALL nnn (R153) -/
  | call (nnn : Addr)
  /-- `3XNN`, SE Vx, nn (R154) -/
  | seImm (x : RegIdx) (nn : Byte)
  /-- `4XNN`, SNE Vx, nn (R155) -/
  | sneImm (x : RegIdx) (nn : Byte)
  /-- `5XY0`, SE Vx, Vy (R156) -/
  | seReg (x y : RegIdx)
  /-- `6XNN`, LD Vx, nn (R173) -/
  | ldImm (x : RegIdx) (nn : Byte)
  /-- `7XNN`, ADD Vx, nn (R174) -/
  | addImm (x : RegIdx) (nn : Byte)
  /-- `8XY0`, LD Vx, Vy (R175) -/
  | ldReg (x y : RegIdx)
  /-- `8XY1`, OR Vx, Vy (R176) -/
  | orReg (x y : RegIdx)
  /-- `8XY2`, AND Vx, Vy (R177) -/
  | andReg (x y : RegIdx)
  /-- `8XY3`, XOR Vx, Vy (R178) -/
  | xorReg (x y : RegIdx)
  /-- `8XY4`, ADD Vx, Vy (R179) -/
  | addReg (x y : RegIdx)
  /-- `8XY5`, SUB Vx, Vy (R180) -/
  | subReg (x y : RegIdx)
  /-- `8XY6`, SHR Vx (R181) -/
  | shr (x y : RegIdx)
  /-- `8XY7`, SUBN Vx, Vy (R182) -/
  | subnReg (x y : RegIdx)
  /-- `8XYE`, SHL Vx (R183) -/
  | shl (x y : RegIdx)
  /-- `9XY0`, SNE Vx, Vy (R157) -/
  | sneReg (x y : RegIdx)
  /-- `ANNN`, LD I, nnn (R201) -/
  | ldI (nnn : Addr)
  /-- `BNNN`, JP V0, nnn (R158) -/
  | jpV0 (nnn : Addr)
  /-- `CXNN`, RND Vx, nn (R184) -/
  | rnd (x : RegIdx) (nn : Byte)
  /-- `DXYN`, DRW Vx, Vy, n (R142) -/
  | drw (x y : RegIdx) (n : Nat)
  /-- `EX9E`, SKP Vx (R221) -/
  | skp (x : RegIdx)
  /-- `EXA1`, SKNP Vx (R222) -/
  | sknp (x : RegIdx)
  /-- `FX07`, LD Vx, DT (R231) -/
  | ldVxDt (x : RegIdx)
  /-- `FX0A`, LD Vx, K (R223) -/
  | ldVxK (x : RegIdx)
  /-- `FX15`, LD DT, Vx (R232) -/
  | ldDtVx (x : RegIdx)
  /-- `FX18`, LD ST, Vx (R233) -/
  | ldStVx (x : RegIdx)
  /-- `FX1E`, ADD I, Vx (R202) -/
  | addI (x : RegIdx)
  /-- `FX29`, LD F, Vx (R203) -/
  | ldF (x : RegIdx)
  /-- `FX33`, LD B, Vx (R204) -/
  | ldB (x : RegIdx)
  /-- `FX55`, LD [I], Vx (R205) -/
  | ldMemRegs (x : RegIdx)
  /-- `FX65`, LD Vx, [I] (R206) -/
  | ldRegsMem (x : RegIdx)
deriving DecidableEq, Repr

end Sys2Proof
end

