-- ==== Sys2Proof/Decode.lean ====
section
/-! DEFINITION. Decoding (R90 to R105), then encoding. Decoding depends on the word alone (R94, R123); a word that is none
of the 34 instructions is rejected by name. -/

namespace Sys2Proof

/-- Why bytes are no instruction. -/
inductive DecodeError where
  /-- The word matches no row of R98 (R104). -/
  | illegalInstruction (word : Word)
  /-- Fewer than the two bytes of a word are there (R90). -/
  | truncated (bytes : List Byte)
deriving DecidableEq, Repr

/-! ## Fields (R92) -/

/-- `op = w[15:12]` -/
def opField (w : Word) : BitVec 4 := w.extractLsb' 12 4

/-- `x = w[11:8]` -/
def xField (w : Word) : RegIdx := w.extractLsb' 8 4

/-- `y = w[7:4]` -/
def yField (w : Word) : RegIdx := w.extractLsb' 4 4

/-- `n = w[3:0]` -/
def nField (w : Word) : BitVec 4 := w.extractLsb' 0 4

/-- `nn = w[7:0]` -/
def nnField (w : Word) : Byte := w.extractLsb' 0 8

/-- `nnn = w[11:0]` -/
def nnnField (w : Word) : Addr := w.extractLsb' 0 12

/-! ## The word and its two bytes (R62) -/

/-- The word of two consecutive bytes: the first is the high byte (R62). -/
def wordOfBytes (hi lo : Byte) : Word := hi ++ lo

/-- `w[15:8]`, the byte at the lower address (R62). -/
def highByte (w : Word) : Byte := w.extractLsb' 8 8

/-- `w[7:0]`, the byte at the higher address (R62). -/
def lowByte (w : Word) : Byte := w.extractLsb' 0 8

/-- A word's bytes in the order memory holds them (R62). -/
def bytesOfWord (w : Word) : List Byte := [highByte w, lowByte w]

/-! ## The decision tree of R99 -/

/-- Category 0: the whole word selects. -/
def decodeGroup0 (w : Word) : Option Instr :=
  if w = 0x00E0#16 then some .cls
  else if w = 0x00EE#16 then some .ret
  else none

/-- Category 8, the arithmetic group: the low nibble selects. -/
def decodeGroup8 (x y n : BitVec 4) : Option Instr :=
  if n = 0x0#4 then some (.ldReg x y)
  else if n = 0x1#4 then some (.orReg x y)
  else if n = 0x2#4 then some (.andReg x y)
  else if n = 0x3#4 then some (.xorReg x y)
  else if n = 0x4#4 then some (.addReg x y)
  else if n = 0x5#4 then some (.subReg x y)
  else if n = 0x6#4 then some (.shr x y)
  else if n = 0x7#4 then some (.subnReg x y)
  else if n = 0xE#4 then some (.shl x y)
  else none

/-- Category E, the input group: the low byte selects. -/
def decodeGroupE (x : RegIdx) (nn : Byte) : Option Instr :=
  if nn = 0x9E#8 then some (.skp x)
  else if nn = 0xA1#8 then some (.sknp x)
  else none

/-- Category F, the memory and timer group: the low byte selects. -/
def decodeGroupF (x : RegIdx) (nn : Byte) : Option Instr :=
  if nn = 0x07#8 then some (.ldVxDt x)
  else if nn = 0x0A#8 then some (.ldVxK x)
  else if nn = 0x15#8 then some (.ldDtVx x)
  else if nn = 0x18#8 then some (.ldStVx x)
  else if nn = 0x1E#8 then some (.addI x)
  else if nn = 0x29#8 then some (.ldF x)
  else if nn = 0x33#8 then some (.ldB x)
  else if nn = 0x55#8 then some (.ldMemRegs x)
  else if nn = 0x65#8 then some (.ldRegsMem x)
  else none

/-- `decode(w)` of R99: `none` is ILLEGAL. Categories 5 and 9 accept the low nibble 0 only (R105 (b)). -/
def decodeWord (w : Word) : Option Instr :=
  let op := opField w
  let x := xField w
  let y := yField w
  let n := nField w
  let nn := nnField w
  let nnn := nnnField w
  if op = 0x0#4 then decodeGroup0 w
  else if op = 0x1#4 then some (.jp nnn)
  else if op = 0x2#4 then some (.call nnn)
  else if op = 0x3#4 then some (.seImm x nn)
  else if op = 0x4#4 then some (.sneImm x nn)
  else if op = 0x5#4 then (if n = 0x0#4 then some (.seReg x y) else none)
  else if op = 0x6#4 then some (.ldImm x nn)
  else if op = 0x7#4 then some (.addImm x nn)
  else if op = 0x8#4 then decodeGroup8 x y n
  else if op = 0x9#4 then (if n = 0x0#4 then some (.sneReg x y) else none)
  else if op = 0xA#4 then some (.ldI nnn)
  else if op = 0xB#4 then some (.jpV0 nnn)
  else if op = 0xC#4 then some (.rnd x nn)
  else if op = 0xD#4 then some (.drw x y n.toNat)
  else if op = 0xE#4 then decodeGroupE x nn
  else decodeGroupF x nn

/-- Decode the first instruction of a list of bytes, high byte first, with the bytes after it (R62, R90, R99). Total; what is
no instruction is rejected by name. -/
def decode : List Byte → Except DecodeError (Instr × List Byte)
  | hi :: lo :: rest =>
    match decodeWord (wordOfBytes hi lo) with
    | some i => .ok (i, rest)
    | none => .error (.illegalInstruction (wordOfBytes hi lo))
  | bytes => .error (.truncated bytes)

/-! ## Encoding (R93, R98) -/

/-- The word of an instruction, field after field from bit 15 down, as R93 lays the six formats out. -/
def encode : Instr → Word
  | .cls => 0x00E0#16
  | .ret => 0x00EE#16
  | .jp nnn => 0x1#4 ++ nnn
  | .call nnn => 0x2#4 ++ nnn
  | .seImm x nn => 0x3#4 ++ x ++ nn
  | .sneImm x nn => 0x4#4 ++ x ++ nn
  | .seReg x y => 0x5#4 ++ x ++ y ++ 0x0#4
  | .ldImm x nn => 0x6#4 ++ x ++ nn
  | .addImm x nn => 0x7#4 ++ x ++ nn
  | .ldReg x y => 0x8#4 ++ x ++ y ++ 0x0#4
  | .orReg x y => 0x8#4 ++ x ++ y ++ 0x1#4
  | .andReg x y => 0x8#4 ++ x ++ y ++ 0x2#4
  | .xorReg x y => 0x8#4 ++ x ++ y ++ 0x3#4
  | .addReg x y => 0x8#4 ++ x ++ y ++ 0x4#4
  | .subReg x y => 0x8#4 ++ x ++ y ++ 0x5#4
  | .shr x y => 0x8#4 ++ x ++ y ++ 0x6#4
  | .subnReg x y => 0x8#4 ++ x ++ y ++ 0x7#4
  | .shl x y => 0x8#4 ++ x ++ y ++ 0xE#4
  | .sneReg x y => 0x9#4 ++ x ++ y ++ 0x0#4
  | .ldI nnn => 0xA#4 ++ nnn
  | .jpV0 nnn => 0xB#4 ++ nnn
  | .rnd x nn => 0xC#4 ++ x ++ nn
  | .drw x y n => 0xD#4 ++ x ++ y ++ BitVec.ofNat 4 n
  | .skp x => 0xE#4 ++ x ++ 0x9E#8
  | .sknp x => 0xE#4 ++ x ++ 0xA1#8
  | .ldVxDt x => 0xF#4 ++ x ++ 0x07#8
  | .ldVxK x => 0xF#4 ++ x ++ 0x0A#8
  | .ldDtVx x => 0xF#4 ++ x ++ 0x15#8
  | .ldStVx x => 0xF#4 ++ x ++ 0x18#8
  | .addI x => 0xF#4 ++ x ++ 0x1E#8
  | .ldF x => 0xF#4 ++ x ++ 0x29#8
  | .ldB x => 0xF#4 ++ x ++ 0x33#8
  | .ldMemRegs x => 0xF#4 ++ x ++ 0x55#8
  | .ldRegsMem x => 0xF#4 ++ x ++ 0x65#8

/-- An instruction's bytes as memory holds them (R62). -/
def encodeBytes (i : Instr) : List Byte := bytesOfWord (encode i)

/-! ## The opcode map of R98 -/

/-- The opcode map, `(match, mask)` row by row in the table's order (R98). -/
def opcodeMap : List (Word × Word) :=
  [(0x00E0#16, 0xFFFF#16), (0x00EE#16, 0xFFFF#16), (0x1000#16, 0xF000#16), (0x2000#16, 0xF000#16),
   (0x3000#16, 0xF000#16), (0x4000#16, 0xF000#16), (0x5000#16, 0xF00F#16), (0x6000#16, 0xF000#16),
   (0x7000#16, 0xF000#16), (0x8000#16, 0xF00F#16), (0x8001#16, 0xF00F#16), (0x8002#16, 0xF00F#16)]
  ++ [(0x8003#16, 0xF00F#16), (0x8004#16, 0xF00F#16), (0x8005#16, 0xF00F#16), (0x8006#16, 0xF00F#16),
   (0x8007#16, 0xF00F#16), (0x800E#16, 0xF00F#16), (0x9000#16, 0xF00F#16), (0xA000#16, 0xF000#16),
   (0xB000#16, 0xF000#16), (0xC000#16, 0xF000#16), (0xD000#16, 0xF000#16), (0xE09E#16, 0xF0FF#16)]
  ++ [(0xE0A1#16, 0xF0FF#16), (0xF007#16, 0xF0FF#16), (0xF00A#16, 0xF0FF#16), (0xF015#16, 0xF0FF#16),
   (0xF018#16, 0xF0FF#16), (0xF01E#16, 0xF0FF#16), (0xF029#16, 0xF0FF#16), (0xF033#16, 0xF0FF#16),
   (0xF055#16, 0xF0FF#16), (0xF065#16, 0xF0FF#16)]

/-- `w & mask = match` (R98). -/
abbrev matchesRow (w : Word) (row : Word × Word) : Prop := w &&& row.2 = row.1

/-- The row of R98 an instruction belongs to, counted from 0. -/
def rowOf : Instr → Nat
  | .cls => 0
  | .ret => 1
  | .jp _ => 2
  | .call _ => 3
  | .seImm _ _ => 4
  | .sneImm _ _ => 5
  | .seReg _ _ => 6
  | .ldImm _ _ => 7
  | .addImm _ _ => 8
  | .ldReg _ _ => 9
  | .orReg _ _ => 10
  | .andReg _ _ => 11
  | .xorReg _ _ => 12
  | .addReg _ _ => 13
  | .subReg _ _ => 14
  | .shr _ _ => 15
  | .subnReg _ _ => 16
  | .shl _ _ => 17
  | .sneReg _ _ => 18
  | .ldI _ => 19
  | .jpV0 _ => 20
  | .rnd _ _ => 21
  | .drw _ _ _ => 22
  | .skp _ => 23
  | .sknp _ => 24
  | .ldVxDt _ => 25
  | .ldVxK _ => 26
  | .ldDtVx _ => 27
  | .ldStVx _ => 28
  | .addI _ => 29
  | .ldF _ => 30
  | .ldB _ => 31
  | .ldMemRegs _ => 32
  | .ldRegsMem _ => 33

/-- The host's question: what the decoder reads from an instruction whose bits are `w`, numbered as the opcode table numbers
them; bits from `nbits` up are 0. The word lies in memory high byte first (R62). -/
def decodeTableWord (nbits w : Nat) : Option Instr :=
  match decode (bytesOfWord (BitVec.ofNat 16 (w % 2 ^ nbits))) with
  | .ok (i, _) => some i
  | .error _ => none

end Sys2Proof
end

