-- ==== Sys2Proof/Config.lean ====
section
/-! DEFINITION. What is fixed for the machine, and the free values: what the environment answers. An `opaque` constant here
has no body that a proof could use, so a theorem holds whatever the environment answers. -/

namespace Sys2Proof.Config

/-- `MEM_SIZE` (R5). -/
def memSize : Nat := 4096

/-- `STACK_SLOTS` (R5). -/
def stackSlots : Nat := 16

/-- `NUM_KEYS` (R5). -/
def numKeys : Nat := 16

/-- `FB_WIDTH` (R5). -/
def fbWidth : Nat := 64

/-- `FB_HEIGHT` (R5). -/
def fbHeight : Nat := 32

/-- `PROGRAM_START` (R6, D1). -/
def programStart : Nat := 0x200

/-- `GLYPH_BYTES` (R5). -/
def glyphBytes : Nat := 5

/-- The longest ROM that loads: `MEM_SIZE - PROGRAM_START` (R6, R288). -/
def maxRom : Nat := memSize - programStart

/-- `FONT_BASE`, a parameter the spec leaves open. The type is its constraint `FONT_BASE + 80 <= PROGRAM_START` (R6, D2): at
most 432. DESIGN CHOICE, log 5. -/
opaque fontBase : Fin 433

/-- `FONT_TABLE`, 80 bytes, a parameter the spec leaves open (R6, D3). DESIGN CHOICE, log 5. -/
opaque fontTable : Vector Byte 80

/-- `RandomByte()` of the CPU step with this number: a free draw under no law (R37). DESIGN CHOICE, log 1. -/
opaque randomByte : Nat → Byte

/-- `KeyDown(k)` asked in the CPU step with this number: a free draw under no law (R36). DESIGN CHOICE, log 2. -/
opaque keyDown : Nat → Key → Bool

/-- `KeyEvent()` asked in the CPU step with this number: a free draw under no law (R36). DESIGN CHOICE, log 2. -/
opaque keyEvent : Nat → Option Key

/-- How many ticks fell since the CPU step before the one with this number: any natural number (R259). DESIGN CHOICE, log 3. -/
opaque ticksBefore : Nat → Nat

end Sys2Proof.Config
end

