-- ==== Sys2Proof/Machine/State.lean ====
section
/-! DEFINITION. The state of CHIP8-CORE, all that `spec/10_state.md` gives the machine, as plain data, and its reset value. -/

namespace Sys2Proof.Machine

/-- The run state (R32). STOPPED and FAULTED are predicates of other state, not values of it. -/
inductive RunState where
  /-- program-not-loaded: no CPU step exists -/
  | notLoaded
  /-- program-loaded-running -/
  | running
deriving DecidableEq, Repr

/-- The four kinds of fault with the information they record (R33, R240). -/
inductive FaultKind where
  /-- the fetched word matches no row of R98 (R241) -/
  | illegalInstruction (word : Word)
  /-- `CALL` with 16 calls outstanding (R242) -/
  | stackFull
  /-- `RET` with none outstanding (R243) -/
  | stackEmpty
  /-- a memory address above 4095 or a key number above 15 (R244) -/
  | outOfBounds (index : Nat)
deriving DecidableEq, Repr

/-- Main memory: (address, byte) pairs in canonical form (`Memory.wf`); an unlisted address reads as `Memory.unlisted`. -/
abbrev Memory := List Host.Cell

/-- The framebuffer's 32 rows; bit `px` of row `py` is the pixel `fb[px][py]` (R35; log 14). -/
abbrev Framebuffer := Vector (BitVec 64) 32

/-- The whole state (`spec/10_state.md`). -/
structure State where
  /-- `V[0]` to `V[15]` (R20) -/
  v : Vector Byte 16
  /-- the address register `I`, 16 bits of storage (R26) -/
  iReg : Word
  /-- the program counter (R23) -/
  pc : Word
  /-- the stack pointer: how many return addresses are on the stack (R27) -/
  sp : Byte
  /-- the call stack (R28) -/
  stack : Vector Word 16
  /-- the delay timer (R31) -/
  dt : Byte
  /-- the sound timer (R31) -/
  st : Byte
  /-- main memory (R34) -/
  mem : Memory
  /-- the framebuffer (R35) -/
  fb : Framebuffer
  /-- the run state (R32) -/
  run : RunState
  /-- the fault record (R33) -/
  fault : Option FaultKind
  /-- THE MODEL'S OWN FIELD: the number of CPU steps taken, so that every step draws fresh free values (log 4) -/
  draws : Nat
deriving DecidableEq, Repr

/-- Why `step` (or a meaning) stops the machine: in each case the spec says that no step exists. All are safe: nothing is
claimed of a state the spec gives none. -/
inductive Fault where
  /-- raised by `step` while `run = NOT_LOADED`: "no CPU step exists" (R282). Safe. -/
  | notLoaded
  /-- raised by `step` when the fault record is set: the core "takes no further step, ever" (R249). Safe. -/
  | faulted
  /-- raised by `step` when `pc > 4094`: STOPPED, the clean end of a run (R121). Safe. -/
  | stopped
  /-- raised by `CALL` and `RET` when `SP > 16`, which no run reaches and for which there is no stack slot (R27; log 7).
  Safe. -/
  | stackPointerRange
deriving DecidableEq, Repr

/-- What is refused. -/
inductive Refusal where
  /-- raised by `exec` for an instruction with no meaning yet. Safe. -/
  | notModelled (mnemonic : String)
  /-- raised by the host's `LoadProgram`, on a machine that is not loaded, for a ROM longer than 3584 bytes, with the index of the
  host-side error (R288; log 15). Safe. -/
  | romTooLong (index : Nat)
  /-- raised by the host's `LoadProgram`, whatever the ROM, and `LoadFont` once a program is loaded (R291; log 10, log 15). Safe. -/
  | alreadyLoaded
deriving DecidableEq, Repr

/-- What a step or a host operation answers. -/
abbrev Answer := Host.Outcome State Fault Refusal

/-- The state right after reset: everything 0, no program, no fault (R40, R280). `draws` starts at 0: DESIGN CHOICE, log 4. -/
def State.reset : State where
  v := Vector.replicate 16 0#8
  iReg := 0#16
  pc := 0#16
  sp := 0#8
  stack := Vector.replicate 16 0#16
  dt := 0#8
  st := 0#8
  mem := []
  fb := Vector.replicate 32 0#64
  run := .notLoaded
  fault := none
  draws := 0

end Sys2Proof.Machine
end

