-- ==== Sys2Proof/Machine/Ops.lean ====
section
/-! DEFINITION. The named operations over registers, memory, stack, framebuffer and timers, and taking a fault. -/

namespace Sys2Proof.Machine

/-! ## Taking a fault (R249 to R252) -/

/-- Taking a fault, `raise F(info)`: the record is written and nothing else changes; `pc` still addresses the faulting
instruction (R249, R250). The machine has no way back from it: no handler, no saved state, no return (R252). -/
def State.raise (k : FaultKind) (s : State) : Answer := .next { s with fault := some k }

/-- Why an operation inside an instruction cannot complete. -/
inductive Abort where
  /-- it raises one of the four faults -/
  | raised (k : FaultKind)
  /-- the spec gives the state no such operation (log 7) -/
  | stuck (f : Fault)
deriving DecidableEq, Repr

/-- End the instruction: `s` is the state BEFORE it, so that nothing it did survives (R66, R250). -/
def Abort.enter (e : Abort) (s : State) : Answer :=
  match e with
  | .raised k => s.raise k
  | .stuck f => .fault f

/-- The numeric code of a fault record (R240). -/
def faultCode : Option FaultKind → Nat
  | none => 0
  | some (.illegalInstruction _) => 1
  | some .stackFull => 2
  | some .stackEmpty => 3
  | some (.outOfBounds _) => 4

/-! ## General registers and `I` (R20, R26) -/

/-- `V[x]` -/
def State.reg (s : State) (x : RegIdx) : Byte := s.v[x.toNat]'x.isLt

/-- `V[x] <- b` -/
def State.setReg (s : State) (x : RegIdx) (b : Byte) : State := { s with v := s.v.set x.toNat b x.isLt }

/-- `I <- a` -/
def State.setI (s : State) (a : Word) : State := { s with iReg := a }

/-- `V[k] <- bs[0]`, `V[k+1] <- bs[1]`, ...: the registers after a load of bytes from register `k` up (R206). -/
def loadRegs (v : Vector Byte 16) (k : Nat) : List Byte → Vector Byte 16
  | [] => v
  | b :: bs => loadRegs (v.setIfInBounds k b) (k + 1) bs

/-! ## Program counter (R23) -/

/-- `pc <- a`, the class JUMP (R124). -/
def State.jump (s : State) (a : Word) : State := { s with pc := a }

/-- `pc <- pc + 2`, the class SEQ (R124). -/
def State.advance (s : State) : State := s.jump (s.pc + 2#16)

/-- `if c then pc <- pc + 4 else pc <- pc + 2`, the class SKIP (R124). -/
def State.skipIf (s : State) (c : Bool) : State := s.jump (s.pc + (if c then 4#16 else 2#16))

/-! ## Memory (R34, R60 to R66) -/

/-- What an address that memory does not list reads as: the reset contents (R34, R40). -/
def Memory.unlisted : Byte := 0#8

/-- The canonical form: addresses below 4096, strictly rising, and no entry that holds what an unlisted address reads as. -/
def Memory.wf : Memory → Bool
  | [] => true
  | c :: m =>
    decide (c.1 < Config.memSize) && decide (c.2 ≠ Memory.unlisted) && m.all (fun d => decide (c.1 < d.1)) && Memory.wf m

/-- The byte at address `a`. -/
def Memory.read : Memory → Nat → Byte
  | [], _ => Memory.unlisted
  | c :: m, a => if c.1 = a then c.2 else Memory.read m a

/-- Memory without an entry for `a`. -/
def Memory.drop (m : Memory) (a : Nat) : Memory := List.filter (fun c => decide (c.1 ≠ a)) m

/-- Memory with the entry `(a, b)` put before the first higher address. -/
def Memory.place (a : Nat) (b : Byte) : Memory → Memory
  | [] => [(a, b)]
  | c :: m => if a < c.1 then (a, b) :: c :: m else c :: Memory.place a b m

/-- The byte at `a` becomes `b`; the canonical form is kept. -/
def Memory.write (m : Memory) (a : Nat) (b : Byte) : Memory :=
  if b = Memory.unlisted then Memory.drop m a else Memory.place a b (Memory.drop m a)

/-- The `n` bytes from `a` up, in ascending order (R71). -/
def Memory.readBytes (m : Memory) (a : Nat) : Nat → List Byte
  | 0 => []
  | n + 1 => Memory.read m a :: Memory.readBytes m (a + 1) n

/-- Write the bytes from `a` up, in ascending order (R71). -/
def Memory.writeBytes (m : Memory) (a : Nat) : List Byte → Memory
  | [] => m
  | b :: bs => Memory.writeBytes (Memory.write m a b) (a + 1) bs

/-- An access of `n` bytes from `a` up is legal: it touches nothing, or its last address is at most 4095. The sum is over the
naturals (R65, R66). -/
def inMemory (a n : Nat) : Bool := decide (n = 0 ∨ a + n ≤ Config.memSize)

/-- The lowest address out of range of an access from `a` up that is not legal: `a` itself or 4096 (R244, D25). -/
def firstOutside (a : Nat) : Nat := max a Config.memSize

/-- `MemRead` of `n` bytes from `a` up: all addresses are checked before the first read (R60, R66). -/
def State.memRead (s : State) (a n : Nat) : Except Abort (List Byte) :=
  if inMemory a n then .ok (Memory.readBytes s.mem a n) else .error (.raised (.outOfBounds (firstOutside a)))

/-- `MemWrite` of the bytes from `a` up: all addresses are checked before the first write (R61, R66). -/
def State.memWrite (s : State) (a : Nat) (bs : List Byte) : Except Abort State :=
  if inMemory a bs.length then .ok { s with mem := Memory.writeBytes s.mem a bs }
  else .error (.raised (.outOfBounds (firstOutside a)))

/-! ## The call stack (R28 to R30) -/

/-- `Push(a)`: "fails with stack-full if depth already at 16" (R29). -/
def State.push (s : State) (a : Word) : Except Abort State :=
  if h : s.sp.toNat < 16 then .ok { s with stack := s.stack.set s.sp.toNat a h, sp := s.sp + 1#8 }
  else if s.sp.toNat = 16 then .error (.raised .stackFull)
  else .error (.stuck .stackPointerRange)

/-- `Pop()`: the popped address and the state after; "fails with stack-empty if depth is 0". The slot keeps its value (R28,
R30). -/
def State.pop (s : State) : Except Abort (Word × State) :=
  if s.sp.toNat = 0 then .error (.raised .stackEmpty)
  else if h : s.sp.toNat - 1 < 16 then .ok (s.stack[s.sp.toNat - 1], { s with sp := s.sp - 1#8 })
  else .error (.stuck .stackPointerRange)

/-! ## The framebuffer (R35) -/

/-- `row` with its bit `k` made `b`. -/
def setBit (row : BitVec 64) (k : Nat) (b : Bool) : BitVec 64 :=
  if b then row ||| (1#64 <<< k) else row &&& ~~~(1#64 <<< k)

/-- `FbRead(px, py)` -/
def Framebuffer.pixel (fb : Framebuffer) (px : Fin 64) (py : Fin 32) : Bool := fb[py.val].getLsbD px.val

/-- `FbWrite(px, py, b)` -/
def Framebuffer.write (fb : Framebuffer) (px : Fin 64) (py : Fin 32) (b : Bool) : Framebuffer :=
  fb.set py.val (setBit fb[py.val] px.val b)

/-- `FbClear()` -/
def Framebuffer.clear : Framebuffer := Vector.replicate 32 0#64

/-- The pixel `fb[px][py]` of a state. -/
def State.pixel (s : State) (px : Fin 64) (py : Fin 32) : Bool := Framebuffer.pixel s.fb px py

/-! ## Timers and the tick (R31, R258) -/

/-- `DT <- b` -/
def State.setDt (s : State) (b : Byte) : State := { s with dt := b }

/-- `ST <- b` -/
def State.setSt (s : State) (b : Byte) : State := { s with st := b }

/-- One tick of one timer: a timer at 0 stays at 0 (R258, D23). -/
def countDown (t : Byte) : Byte := if t.toNat > 0 then t - 1#8 else t

/-- `Tick()`: both timers are served by the same tick, nothing else changes (R258). -/
def State.tick (s : State) : State := { s with dt := countDown s.dt, st := countDown s.st }

/-- A timer after `n` ticks. -/
def countDownBy (n : Nat) (t : Byte) : Byte := BitVec.ofNat 8 (t.toNat - n)

/-- `n` ticks at once: `tick` done `n` times, which `Obligations.TicksAreRepeatedTick` states (log 3). -/
def State.ticks (n : Nat) (s : State) : State := { s with dt := countDownBy n s.dt, st := countDownBy n s.st }

end Sys2Proof.Machine
end

