-- ==== Sys2Proof/Machine/Cycle.lean ====
section
/-! DEFINITION. The parts of one CPU step: when it exists, what it fetches, what happens before it (`spec/40_cycle.md`). -/

namespace Sys2Proof.Machine

/-- `HasMore`: both bytes of an instruction at `pc` are inside memory (R121). -/
def State.hasMore (s : State) : Bool := decide (s.pc.toNat ≤ 4094)

/-- Why no CPU step exists in this state, if none does (R120; log 6). -/
def State.noStep (s : State) : Option Fault :=
  if s.run = .notLoaded then some .notLoaded
  else if s.fault ≠ none then some .faulted
  else if s.hasMore then none
  else some .stopped

/-- The two bytes at `pc` and `pc + 1`, whatever the parity of `pc`; the fetch has no side effect (R62, R63, R122). -/
def State.fetchBytes (s : State) : List Byte := Memory.readBytes s.mem s.pc.toNat 2

/-- The state in which the CPU acts: a free number of ticks fell since the step before (R259), and the step draws its own
free values (log 3, log 4). -/
def State.beginStep (s : State) : State :=
  { s.ticks (Config.ticksBefore s.draws) with draws := s.draws + 1 }

/-- What a word that is no instruction does (R104, R120, R241). The two bytes of a fetch are never too few. -/
def rejectFetch (e : DecodeError) (s : State) : Answer :=
  match e with
  | .illegalInstruction w => s.raise (.illegalInstruction w)
  | .truncated _ => .fault .stopped

/-- Where the host's check places an instruction: at `pc` where the CPU has a step there, else where a load would (R290;
log 8). -/
def State.placementAddress (s : State) : Word :=
  if s.run = .running ∧ s.hasMore then s.pc else BitVec.ofNat 16 Config.programStart

/-- The word `w` placed where the next step fetches it: the load of a two-byte program, or the bytes at `pc` of a machine that
already runs; a fault record is cleared, since no step follows one (log 8). -/
def State.placeWord (s : State) (w : Word) : State :=
  { s with
    mem := Memory.writeBytes s.mem s.placementAddress.toNat (bytesOfWord w)
    pc := s.placementAddress
    run := .running
    fault := none }

end Sys2Proof.Machine
end

