-- ==== Sys2Proof/Machine/Operands.lean ====
section
/-! DEFINITION. The operand forms of the instructions (R96, R97, R200). -/

namespace Sys2Proof.Machine

/-- A 12-bit immediate as an address, as it stands (R96). -/
def addrOperand (nnn : Addr) : Word := nnn.setWidth 16

/-- `V[x]` as a 16-bit addend (R158, R202). -/
def State.regWord (s : State) (x : RegIdx) : Word := (s.reg x).setWidth 16

/-- The address in `I`, a natural number that is never reduced (R65, R200). -/
def State.address (s : State) : Nat := s.iReg.toNat

/-- `V[0]` to `V[x]`, the register range of the dump (R97, R205). -/
def State.regsUpTo (s : State) (x : RegIdx) : List Byte := s.v.toList.take (x.toNat + 1)

/-- The low nibble of a register's value, a digit 0 to 15 (R203). -/
def lowNibble (b : Byte) : Nat := (b &&& 0x0F#8).toNat

/-- The address of the font glyph of a digit: `FONT_BASE + 5 * d` (R203). -/
def glyphAddress (d : Nat) : Word := BitVec.ofNat 16 (Config.fontBase.val + Config.glyphBytes * d)

/-- The hundreds, tens and ones digit of a value, each in a byte of its own (R204, D16). -/
def bcdDigits (b : Byte) : List Byte :=
  [BitVec.ofNat 8 (b.toNat / 100), BitVec.ofNat 8 (b.toNat / 10 % 10), BitVec.ofNat 8 (b.toNat % 10)]

/-- The key a register names: the whole 8-bit value, and the keypad has keys 0 to 15 only (R221, D19). -/
def State.keyOperand (s : State) (x : RegIdx) : Except Abort Key :=
  if (s.reg x).toNat < Config.numKeys then .ok ((s.reg x).setWidth 4)
  else .error (.raised (.outOfBounds (s.reg x).toNat))

/-- `KeyDown(k)`: the environment's answer in this step (R36). -/
def State.keyDown (s : State) (k : Key) : Bool := Config.keyDown s.draws k

/-- `KeyEvent()`: the environment's answer in this step (R36). -/
def State.keyEvent (s : State) : Option Key := Config.keyEvent s.draws

/-- `RandomByte()`: the environment's answer in this step (R37). -/
def State.randomByte (s : State) : Byte := Config.randomByte s.draws

end Sys2Proof.Machine
end

