-- ==== Sys2Proof/Machine/Flags.lean ====
section
/-! DEFINITION. The flag computations: what the six flag-writing instructions put in VF (R25), and the order of the result and
the flag (R172). -/

namespace Sys2Proof.Machine

/-- A flag in VF: 0 or 1, never another value (R25). -/
def flagByte (c : Bool) : Byte := if c then 1#8 else 0#8

/-- The carry of an 8-bit add: the sum is over 255 (R179). -/
def carry (a b : Byte) : Bool := decide (a.toNat + b.toNat > 255)

/-- No borrow in `a - b`: `a >= b` (R180, R182). -/
def noBorrow (a b : Byte) : Bool := decide (a.toNat ≥ b.toNat)

/-- The bit a right shift by one shifts out: bit 0 (R181). -/
def shiftedOutRight (a : Byte) : Bool := a.getLsbD 0

/-- The bit a left shift by one shifts out: bit 7 (R183). -/
def shiftedOutLeft (a : Byte) : Bool := a.getLsbD 7

/-- `VF <- 1` or `VF <- 0` -/
def State.setFlag (s : State) (c : Bool) : State := s.setReg VF (flagByte c)

/-- The end of a flag-writing instruction of the ALU: the result to `V[x]` first, the flag to VF second, so that the flag
remains when `x = 15` (R172, D11); then `pc + 2`. -/
def State.writeResultThenFlag (s : State) (x : RegIdx) (result : Byte) (flag : Bool) : State :=
  ((s.setReg x result).setFlag flag).advance

end Sys2Proof.Machine
end

