-- ==== Sys2Proof/Machine/Alu.lean ====
section
/-! DEFINITION. Register load, ALU and random instructions (`spec/43_alu.md`). All source registers are read from the state
before the instruction (R171). -/

namespace Sys2Proof.Machine

/-- LD Vx, nn (R173). -/
def execLdImm (x : RegIdx) (nn : Byte) (s : State) : Answer := .next (s.setReg x nn).advance

/-- ADD Vx, nn (R174): no flag. -/
def execAddImm (x : RegIdx) (nn : Byte) (s : State) : Answer := .next (s.setReg x (s.reg x + nn)).advance

/-- LD Vx, Vy (R175). -/
def execLdReg (x y : RegIdx) (s : State) : Answer := .next (s.setReg x (s.reg y)).advance

/-- OR Vx, Vy (R176): VF is not written as a flag (D14). -/
def execOrReg (x y : RegIdx) (s : State) : Answer := .next (s.setReg x (s.reg x ||| s.reg y)).advance

/-- AND Vx, Vy (R177): VF is not written as a flag (D14). -/
def execAndReg (x y : RegIdx) (s : State) : Answer := .next (s.setReg x (s.reg x &&& s.reg y)).advance

/-- XOR Vx, Vy (R178): VF is not written as a flag (D14). -/
def execXorReg (x y : RegIdx) (s : State) : Answer := .next (s.setReg x (s.reg x ^^^ s.reg y)).advance

/-- ADD Vx, Vy (R179). -/
def execAddReg (x y : RegIdx) (s : State) : Answer :=
  .next (s.writeResultThenFlag x (s.reg x + s.reg y) (carry (s.reg x) (s.reg y)))

/-- SUB Vx, Vy (R180). -/
def execSubReg (x y : RegIdx) (s : State) : Answer :=
  .next (s.writeResultThenFlag x (s.reg x - s.reg y) (noBorrow (s.reg x) (s.reg y)))

/-- SHR Vx (R181): `V[x]` is shifted in place, the `y` of the word is ignored (D12). -/
def execShr (x _y : RegIdx) (s : State) : Answer :=
  .next (s.writeResultThenFlag x (s.reg x >>> 1) (shiftedOutRight (s.reg x)))

/-- SUBN Vx, Vy (R182). -/
def execSubnReg (x y : RegIdx) (s : State) : Answer :=
  .next (s.writeResultThenFlag x (s.reg y - s.reg x) (noBorrow (s.reg y) (s.reg x)))

/-- SHL Vx (R183): `V[x]` is shifted in place, the `y` of the word is ignored (D12). -/
def execShl (x _y : RegIdx) (s : State) : Answer :=
  .next (s.writeResultThenFlag x (s.reg x <<< 1) (shiftedOutLeft (s.reg x)))

/-- RND Vx, nn (R184): a free byte under the mask. -/
def execRnd (x : RegIdx) (nn : Byte) (s : State) : Answer := .next (s.setReg x (s.randomByte &&& nn)).advance

end Sys2Proof.Machine
end

