-- ==== Sys2Proof/Machine/ControlFlow.lean ====
section
/-! DEFINITION. The control-flow instructions (`spec/42_control_flow.md`): only `pc`, the stack and `SP` change (R150). -/

namespace Sys2Proof.Machine

/-- RET (R151): the popped value is the next `pc`, nothing is added (D7). -/
def execRet (s : State) : Answer :=
  match s.pop with
  | .error e => e.enter s
  | .ok (a, t) => .next (t.jump a)

/-- JP nnn (R152). -/
def execJp (nnn : Addr) (s : State) : Answer := .next (s.jump (addrOperand nnn))

/-- CALL nnn (R153): the address pushed is that of the instruction after the `CALL` (D7). -/
def execCall (nnn : Addr) (s : State) : Answer :=
  match s.push (s.pc + 2#16) with
  | .error e => e.enter s
  | .ok t => .next (t.jump (addrOperand nnn))

/-- SE Vx, nn (R154). -/
def execSeImm (x : RegIdx) (nn : Byte) (s : State) : Answer := .next (s.skipIf (decide (s.reg x = nn)))

/-- SNE Vx, nn (R155). -/
def execSneImm (x : RegIdx) (nn : Byte) (s : State) : Answer := .next (s.skipIf (decide (s.reg x ≠ nn)))

/-- SE Vx, Vy (R156). -/
def execSeReg (x y : RegIdx) (s : State) : Answer := .next (s.skipIf (decide (s.reg x = s.reg y)))

/-- SNE Vx, Vy (R157). -/
def execSneReg (x y : RegIdx) (s : State) : Answer := .next (s.skipIf (decide (s.reg x ≠ s.reg y)))

/-- JP V0, nnn (R158): the register is always `V[0]`; the sum is not reduced modulo 4096. -/
def execJpV0 (nnn : Addr) (s : State) : Answer := .next (s.jump (addrOperand nnn + s.regWord 0#4))

end Sys2Proof.Machine
end

