-- ==== Sys2Proof/Machine/Display.lean ====
section
/-! DEFINITION. The display instructions and the collision detector (`spec/41_display.md`). -/

namespace Sys2Proof.Machine

/-- CLS (R141). -/
def execCls (s : State) : Answer := .next { s with fb := Framebuffer.clear }.advance

/-- The framebuffer and the collision so far. -/
abbrev Drawing := Framebuffer × Bool

/-- The pixel of column `col` of a sprite row `b` drawn at `(x0, y0)`, `r` rows down: bit 7 of the byte is the leftmost pixel
(R140, D17), each coordinate wraps on its own, and an on pixel turned off is a collision (R142, R143 (a)). -/
def drawPixel (x0 y0 r : Nat) (b : Byte) (d : Drawing) (col : Nat) : Drawing :=
  if b.getLsbD (7 - col) then
    let px : Fin 64 := ⟨(x0 + col) % 64, Nat.mod_lt _ (by decide)⟩
    let py : Fin 32 := ⟨(y0 + r) % 32, Nat.mod_lt _ (by decide)⟩
    let old := Framebuffer.pixel d.1 px py
    (Framebuffer.write d.1 px py (!old), d.2 || old)
  else d

/-- One sprite row, columns 0 to 7 (R142). -/
def drawRow (x0 y0 r : Nat) (b : Byte) (d : Drawing) : Drawing := (List.range 8).foldl (drawPixel x0 y0 r b) d

/-- The sprite rows from row `r` down (R142). -/
def drawRows (x0 y0 : Nat) : List Byte → Nat → Drawing → Drawing
  | [], _, d => d
  | b :: bs, r, d => drawRows x0 y0 bs (r + 1) (drawRow x0 y0 r b d)

/-- DRW Vx, Vy, n (R142, R143): the coordinates are read before VF is written; with `n = 0` nothing is read and VF becomes 0. -/
def execDrw (x y : RegIdx) (n : Nat) (s : State) : Answer :=
  match s.memRead s.address n with
  | .error e => e.enter s
  | .ok rows =>
    let d := drawRows (s.reg x).toNat (s.reg y).toNat rows 0 (s.fb, false)
    .next ({ s with fb := d.1 }.setFlag d.2).advance

end Sys2Proof.Machine
end

