-- ==== Sys2Proof/Machine/IndexMemory.lean ====
section
/-! DEFINITION. Address-register and memory instructions (`spec/44_index_memory.md`). `I` is the same after a memory access as
before (R200, D15). -/

namespace Sys2Proof.Machine

/-- LD I, nnn (R201). -/
def execLdI (nnn : Addr) (s : State) : Answer := .next (s.setI (addrOperand nnn)).advance

/-- ADD I, Vx (R202): the sum wraps at 65536; no flag (D14). -/
def execAddI (x : RegIdx) (s : State) : Answer := .next (s.setI (s.iReg + s.regWord x)).advance

/-- LD F, Vx (R203): an address is computed, memory is not accessed. -/
def execLdF (x : RegIdx) (s : State) : Answer := .next (s.setI (glyphAddress (lowNibble (s.reg x)))).advance

/-- LD B, Vx (R204). -/
def execLdB (x : RegIdx) (s : State) : Answer :=
  match s.memWrite s.address (bcdDigits (s.reg x)) with
  | .error e => e.enter s
  | .ok t => .next t.advance

/-- LD [I], Vx (R205). -/
def execLdMemRegs (x : RegIdx) (s : State) : Answer :=
  match s.memWrite s.address (s.regsUpTo x) with
  | .error e => e.enter s
  | .ok t => .next t.advance

/-- LD Vx, [I] (R206). -/
def execLdRegsMem (x : RegIdx) (s : State) : Answer :=
  match s.memRead s.address (x.toNat + 1) with
  | .error e => e.enter s
  | .ok bs => .next { s with v := loadRegs s.v 0 bs }.advance

end Sys2Proof.Machine
end

