-- ==== Sys2Proof/Machine/Keypad.lean ====
section
/-! DEFINITION. Keypad instructions (`spec/45_keypad.md`). The keypad's answers are free values (R36, R220; log 2). -/

namespace Sys2Proof.Machine

/-- SKP Vx (R221). -/
def execSkp (x : RegIdx) (s : State) : Answer :=
  match s.keyOperand x with
  | .error e => e.enter s
  | .ok k => .next (s.skipIf (s.keyDown k))

/-- SKNP Vx (R222). -/
def execSknp (x : RegIdx) (s : State) : Answer :=
  match s.keyOperand x with
  | .error e => e.enter s
  | .ok k => .next (s.skipIf (!s.keyDown k))

/-- The state after a key wait: unchanged with no event, else the key in `V[x]` and `pc + 2` (R223). -/
def State.afterKeyWait (s : State) (x : RegIdx) : State :=
  match s.keyEvent with
  | none => s
  | some k => (s.setReg x (k.setWidth 8)).advance

/-- LD Vx, K (R223): the step completes in either case. -/
def execLdVxK (x : RegIdx) (s : State) : Answer := .next (s.afterKeyWait x)

end Sys2Proof.Machine
end

