-- ==== Sys2Proof/Machine/Timers.lean ====
section
/-! DEFINITION. Timer instructions (`spec/46_timers.md`). -/

namespace Sys2Proof.Machine

/-- LD Vx, DT (R231). -/
def execLdVxDt (x : RegIdx) (s : State) : Answer := .next (s.setReg x s.dt).advance

/-- LD DT, Vx (R232). -/
def execLdDtVx (x : RegIdx) (s : State) : Answer := .next (s.setDt (s.reg x)).advance

/-- LD ST, Vx (R233). -/
def execLdStVx (x : RegIdx) (s : State) : Answer := .next (s.setSt (s.reg x)).advance

end Sys2Proof.Machine
end

