-- ==== Sys2Proof/Machine/Step.lean ====
section
/-! DEFINITION. One step (R120): the ticks that fell since the step before, then the CPU's fetch, decode and execute. -/

namespace Sys2Proof.Machine

/-- One step of the machine. Where the spec says that no CPU step exists it answers a named stop (R120, R121, R249, R282). -/
def step (s : State) : Host.Outcome State Fault Refusal :=
  match s.noStep with
  | some f => .fault f
  | none =>
    match decode s.fetchBytes with
    | .ok (i, _) => exec i s.beginStep
    | .error e => rejectFetch e s.beginStep

/-- The host's question: the state with the instruction whose bits are `w` (numbered as the opcode table numbers them) placed
where `step` fetches next. -/
def State.withFetchWord (s : State) (nbits w : Nat) : State := s.placeWord (BitVec.ofNat 16 (w % 2 ^ nbits))

end Sys2Proof.Machine
end

