-- ==== Sys2Proof/Machine/HostSide.lean ====
section
/-! DEFINITION. The host's side: reset, font load, program load (`spec/70_reset_and_hazards.md`), and the status outputs
(R41). None of these is a CPU step. -/

namespace Sys2Proof.Machine

/-- A reset event: exactly the reset state (R280, R281). The environment is not reset (R283), so the model's count of draws goes
on (log 4). -/
def State.resetEvent (s : State) : State := { State.reset with draws := s.draws }

/-- `LoadFont(FONT_TABLE, FONT_BASE)` (R289). The host writes nothing once a program is loaded (R291; log 10). -/
def State.loadFont (s : State) : Answer :=
  if s.run = .running then .refused .alreadyLoaded
  else .next { s with mem := Memory.writeBytes s.mem Config.fontBase.val Config.fontTable.toList }

/-- `LoadProgram(rom)` (R290), with its precondition: `run = NOT_LOADED` and at most 3584 bytes (R288, R291). DESIGN CHOICE, log 15:
a ROM that is too long for a machine that already runs breaks both, the spec does not say which error the host gets, and the
model looks at `run` first. -/
def State.loadProgram (rom : List Byte) (s : State) : Answer :=
  if s.run = .running then .refused .alreadyLoaded
  else if rom.length > Config.maxRom then .refused (.romTooLong Config.memSize)
  else
    .next { s with
      mem := Memory.writeBytes s.mem Config.programStart rom
      pc := BitVec.ofNat 16 Config.programStart
      run := .running }

/-- The output `stopped` (R32, R41): the predicate STOPPED. -/
def State.stopped (s : State) : Bool := decide (s.run = .running ∧ s.fault = none ∧ ¬ s.hasMore)

/-- The output `faulted` (R32, R41); the record is the field `fault`. -/
def State.faulted (s : State) : Bool := decide (s.fault ≠ none)

/-- The output `waiting_for_key` of the step taken from `s` (R41, R223): the step exists, the instruction is the key wait, and
no key event is present (log 9). -/
def State.waitingForKey (s : State) : Bool :=
  match s.noStep, decode s.fetchBytes with
  | none, .ok (.ldVxK _, _) => s.beginStep.keyEvent.isNone
  | _, _ => false

end Sys2Proof.Machine
end

