-- ==== Sys2Proof/Safety.lean ====
section
/-! DEFINITION. What a good state is, in the terms the claims use. -/

namespace Sys2Proof.Machine

/-- The bounds every reachable state meets: the call depth is at most 16 (R27), every return address saved is at most 4096 (it
was `pc + 2` of a `CALL` at `pc <= 4094`, R153), and `pc` is at most 0x10FE (R296). -/
def State.Bounded (s : State) : Prop :=
  s.sp.toNat ≤ 16 ∧ (∀ k : Fin 16, s.stack[k.val].toNat ≤ 4096) ∧ s.pc.toNat ≤ 0x10FE

/-- Memory is in its canonical form, all of it below 4096 (R34). -/
def State.MemOk (s : State) : Prop := Memory.wf s.mem = true

/-- A CPU step exists (R120). -/
def State.Steps (s : State) : Prop := s.run = .running ∧ s.fault = none ∧ s.pc.toNat ≤ 4094

/-- Parked (R125): the word at `pc` is a jump to `pc`. -/
def State.Parked (s : State) : Prop :=
  s.Steps ∧ s.fetchBytes = bytesOfWord (0x1000#16 ||| s.pc)

/-- The state but for the two timers and the model's own count of draws. -/
def State.untimed (s : State) : State := { s with dt := 0#8, st := 0#8, draws := 0 }

/-- The sprite of a `DRW` has an on bit over the pixel `(px, py)`: row `r`, column `c` with bit `7 - c` of the byte at `I + r`
(R140, D17), each coordinate wrapping on its own (R142, R143 (a)). -/
def State.SpriteOver (s : State) (x y : RegIdx) (n : Nat) (px : Fin 64) (py : Fin 32) : Prop :=
  ∃ r c : Nat, r < n ∧ c < 8 ∧ px.val = ((s.reg x).toNat + c) % 64 ∧ py.val = ((s.reg y).toNat + r) % 32 ∧
    (Memory.read s.mem (s.iReg.toNat + r)).getLsbD (7 - c) = true

/-- The general registers that R21 and R25 let an instruction write. -/
def writesReg : Instr → RegIdx → Bool
  | .ldImm x _, k | .addImm x _, k | .ldReg x _, k | .orReg x _, k | .andReg x _, k | .xorReg x _, k | .rnd x _, k
  | .ldVxDt x, k | .ldVxK x, k => decide (k = x)
  | .addReg x _, k | .subReg x _, k | .shr x _, k | .subnReg x _, k | .shl x _, k => decide (k = x ∨ k = VF)
  | .drw _ _ _, k => decide (k = VF)
  | .ldRegsMem x, k => decide (k.toNat ≤ x.toNat)
  | .cls, _ | .ret, _ | .jp _, _ | .call _, _ | .seImm _ _, _ | .sneImm _ _, _ | .seReg _ _, _ | .sneReg _ _, _
  | .ldI _, _ | .jpV0 _, _ | .skp _, _ | .sknp _, _ | .ldDtVx _, _ | .ldStVx _, _ | .addI _, _ | .ldF _, _
  | .ldB _, _ | .ldMemRegs _, _ => false

end Sys2Proof.Machine
end

