-- ==== Sys2Proof/Certificates/Slice0/Obligations.lean ====
section
/-! DEFINITION. The statements for the provers, from the numbered rules of `spec/`. An equation `t = { s with a := t.a }` says
that every other field is unchanged, memory among them. Where a clause rests on a choice the spec marks as its own (a decision
D<n>, a derived sentence), the docstring names it. -/

open Sys2Proof Sys2Proof.Machine

/-! ## Encoding -/

/-- Words written out from R98 decode to the instructions they stand for; the bit patterns other than `1NNN` are the spec's
decision D9. -/
def Obligations.SampleWordsDecode : Prop :=
  decodeWord 0x00E0#16 = some .cls ∧ decodeWord 0x1ABC#16 = some (.jp 0xABC#12) ∧
  decodeWord 0x812E#16 = some (.shl 1#4 2#4) ∧ decodeWord 0xA2F0#16 = some (.ldI 0x2F0#12) ∧
  decodeWord 0xD125#16 = some (.drw 1#4 2#4 5) ∧ decodeWord 0xE19E#16 = some (.skp 1#4) ∧
  decodeWord 0xF315#16 = some (.ldDtVx 3#4) ∧ decodeWord 0x0000#16 = none ∧ decodeWord 0x5121#16 = none

/-- Decoding the bytes of a well-formed instruction gives it back, with whatever bytes follow. The bit patterns are D9's. -/
def Obligations.DecodeOfEncode : Prop :=
  ∀ (i : Instr) (rest : List Byte), WellFormed i = true → decode (encodeBytes i ++ rest) = .ok (i, rest)

/-- Every legal word is the encoding of the one well-formed instruction it decodes to. The bit patterns are D9's. -/
def Obligations.EncodeOfDecode : Prop :=
  ∀ (w : Word) (i : Instr), decodeWord w = some i → WellFormed i = true ∧ encode i = w

/-- The decision tree of R99 and the opcode map of R98 agree: a word decodes just when it matches a row, and then to an
instruction of a row it matches. R99 is marked derived, the patterns are D9's. -/
def Obligations.DecodesIffMatchesRow : Prop :=
  ∀ w : Word,
    ((∃ i, decodeWord w = some i) ↔ ∃ row ∈ opcodeMap, matchesRow w row) ∧
    ∀ i, decodeWord w = some i → ∃ row, opcodeMap[rowOf i]? = some row ∧ matchesRow w row

/-- "no word matches two rows" of the opcode map (R98; the patterns are D9's). -/
def Obligations.NoWordMatchesTwoRows : Prop :=
  ∀ (w : Word) (j k : Nat) (a b : Word × Word), opcodeMap[j]? = some a → opcodeMap[k]? = some b →
    matchesRow w a → matchesRow w b → j = k

/-- The illegal words, category by category, as the table of R105 lists them (marked derived there, D10). -/
def Obligations.IllegalWordsByCategory : Prop :=
  ∀ w : Word, decodeWord w = none ↔
    (opField w = 0x0#4 ∧ w ≠ 0x00E0#16 ∧ w ≠ 0x00EE#16) ∨
    ((opField w = 0x5#4 ∨ opField w = 0x9#4) ∧ nField w ≠ 0#4) ∨
    (opField w = 0x8#4 ∧ nField w ∈ [0x8#4, 0x9#4, 0xA#4, 0xB#4, 0xC#4, 0xD#4, 0xF#4]) ∨
    (opField w = 0xE#4 ∧ nnField w ∉ [0x9E#8, 0xA1#8]) ∨
    (opField w = 0xF#4 ∧
      nnField w ∉ [0x07#8, 0x0A#8, 0x15#8, 0x18#8, 0x1E#8, 0x29#8, 0x33#8, 0x55#8, 0x65#8])

/-! ## The step -/

/-- Where a CPU step exists and the bytes at `pc` decode to `i`, the step is `exec i` in the state in which a number of ticks
fell since the step before and the model's own count of draws went up by one (log 3, log 4). -/
def Obligations.StepRunsDecodedInstruction : Prop :=
  ∀ (s : State) (i : Instr) (rest : List Byte), s.Steps → decode s.fetchBytes = .ok (i, rest) →
    step s = exec i s.beginStep ∧
    s.beginStep = { s with
      dt := BitVec.ofNat 8 (s.dt.toNat - Config.ticksBefore s.draws)
      st := BitVec.ofNat 8 (s.st.toNat - Config.ticksBefore s.draws)
      draws := s.draws + 1 }

/-- R120 whole: a step exists only while running, without a fault, at `pc <= 4094`; it fetches the word at `pc`, high byte
first, executes the instruction it decodes to, and raises IllegalInstruction with the word where it decodes to none (R241).
What precedes the CPU's action in the model's step is `beginStep` (log 3, log 4). -/
def Obligations.StepFetchesDecodesExecutes : Prop :=
  ∀ s : State,
    (¬ s.Steps → ∃ f, step s = .fault f) ∧
    (s.Steps →
      match decodeWord (Memory.read s.mem s.pc.toNat ++ Memory.read s.mem (s.pc.toNat + 1)) with
      | some i => step s = exec i s.beginStep
      | none => step s = .next { s.beginStep with
          fault := some (.illegalInstruction (Memory.read s.mem s.pc.toNat ++ Memory.read s.mem (s.pc.toNat + 1))) })

/-- Where no step exists, and by what name the model says so: not loaded, faulted (for good), stopped. That the stop is a named
outcome of `step` is the model's choice (log 6); the bound 4094 is the decision D8. -/
def Obligations.NoStepWhereSpecGivesNone : Prop :=
  ∀ s : State,
    (s.run = .notLoaded → step s = .fault .notLoaded) ∧
    (s.run = .running → s.fault ≠ none → step s = .fault .faulted) ∧
    (s.run = .running → s.fault = none → s.pc.toNat > 4094 → step s = .fault .stopped ∧ s.stopped = true)

/-- Faults are precise: an instruction that writes the fault record changes nothing else (R250, decision D24). -/
def Obligations.FaultsArePrecise : Prop :=
  ∀ (i : Instr) (s t : State), exec i s = .next t → t.fault ≠ s.fault → t = { s with fault := t.fault }

/-- Which instruction can raise what, with the index recorded; every other combination is impossible (R246, marked derived;
R244 with decisions D19 and D25). -/
def Obligations.FaultsOnlyWhereListed : Prop :=
  ∀ (i : Instr) (s t : State) (k : FaultKind), s.fault = none → exec i s = .next t → t.fault = some k →
    (k = .stackFull ∧ s.sp.toNat = 16 ∧ ∃ nnn, i = .call nnn) ∨
    (k = .stackEmpty ∧ s.sp.toNat = 0 ∧ i = .ret) ∨
    (∃ x, (i = .skp x ∨ i = .sknp x) ∧ (s.reg x).toNat > 15 ∧ k = .outOfBounds (s.reg x).toNat) ∨
    (k = .outOfBounds (max s.iReg.toNat 4096) ∧
      ((∃ x y n, i = .drw x y n ∧ n > 0 ∧ s.iReg.toNat + n - 1 > 4095) ∨
       (∃ x, i = .ldB x ∧ s.iReg.toNat + 2 > 4095) ∨
       (∃ x, (i = .ldMemRegs x ∨ i = .ldRegsMem x) ∧ s.iReg.toNat + x.toNat > 4095)))

/-- Every instruction, in every state whose stack pointer is a depth the stack can have, answers a next state: no refusal and
no stop (R253: all 34 are available at all times; marked derived there). -/
def Obligations.EveryInstructionAnswersNext : Prop :=
  ∀ (i : Instr) (s : State), s.sp.toNat ≤ 16 → ∃ t, exec i s = .next t

/-- The reset state meets both invariants of the machine. -/
def Obligations.ResetMeetsInvariants : Prop := State.reset.Bounded ∧ State.reset.MemOk

/-- Every step keeps memory in its canonical form, all of it below 4096. -/
def Obligations.StepKeepsMemoryCanonical : Prop :=
  ∀ s t : State, s.MemOk → step s = .next t → t.MemOk

/-- Every step keeps the call depth at most 16, the saved return addresses at most 4096 and `pc` at most 0x10FE (R27, R296,
marked derived there). -/
def Obligations.StepKeepsBounds : Prop :=
  ∀ s t : State, s.Bounded → step s = .next t → t.Bounded

/-- Each piece of state other than `V`, `pc` and the fault record is written by the instructions that the table of
`spec/10_state.md` section 1 lists for it and by no other: `SP` by CALL and RET, the stack's slots by CALL alone (section 5; a
popped slot keeps its value, decision D5). No instruction writes the run state (R32 in section 5: the host's load sets it, nothing
sets it back) or the model's own count of draws (log 4). -/
def Obligations.StateWrittenOnlyByItsInstructions : Prop :=
  ∀ (i : Instr) (s t : State), exec i s = .next t →
    t.run = s.run ∧ t.draws = s.draws ∧
    (t.sp ≠ s.sp → i = .ret ∨ ∃ nnn, i = .call nnn) ∧
    (t.stack ≠ s.stack → ∃ nnn, i = .call nnn) ∧
    (t.dt ≠ s.dt → ∃ x, i = .ldDtVx x) ∧
    (t.st ≠ s.st → ∃ x, i = .ldStVx x) ∧
    (t.iReg ≠ s.iReg → ∃ nnn x, i = .ldI nnn ∨ i = .addI x ∨ i = .ldF x) ∧
    (∀ a, Memory.read t.mem a ≠ Memory.read s.mem a → ∃ x, i = .ldB x ∨ i = .ldMemRegs x) ∧
    (t.fb ≠ s.fb → i = .cls ∨ ∃ x y n, i = .drw x y n)

/-- A general register changes only where R21's table lets the instruction write it (marked derived there), VF as a flag only
by the six instructions of R25. -/
def Obligations.RegistersWrittenOnlyWhereListed : Prop :=
  ∀ (i : Instr) (s t : State) (k : RegIdx), exec i s = .next t → t.reg k ≠ s.reg k → writesReg i k = true

/-! ## Timers and ticks -/

/-- A tick counts each timer down by one, never below 0 (decision D23), and changes nothing else (R258). -/
def Obligations.TickCountsDown : Prop :=
  ∀ s : State, s.tick.dt.toNat = s.dt.toNat - 1 ∧ s.tick.st.toNat = s.st.toNat - 1 ∧
    s.tick = { s with dt := s.tick.dt, st := s.tick.st }

/-- The ticks that fall between two steps are that many single ticks (R259; decision D35, log 3). -/
def Obligations.TicksAreRepeatedTick : Prop :=
  ∀ (n : Nat) (s : State), s.ticks n = State.tick^[n] s

/-- Over a step a timer rises only if the instruction executed writes it: "two reads with no write between never increase"
(R231). The ticks that fall before the CPU acts are the free number of log 3. -/
def Obligations.TimersRiseOnlyWhenWritten : Prop :=
  ∀ s t : State, step s = .next t →
    ((∀ x rest, decode s.fetchBytes ≠ .ok (.ldDtVx x, rest)) → t.dt.toNat ≤ s.dt.toNat) ∧
    ((∀ x rest, decode s.fetchBytes ≠ .ok (.ldStVx x, rest)) → t.st.toNat ≤ s.st.toNat)

/-! ## Reset and load -/

/-- What reset leaves, at power-on and as a later event: everything 0, NOT_LOADED, no fault (R40, R280, R281; that every field
starts at 0 is the decision D26). -/
def Obligations.ResetLeavesZeros : Prop :=
  ∀ s t : State, t = State.reset ∨ t = s.resetEvent →
    (∀ x, t.reg x = 0#8) ∧ t.iReg = 0#16 ∧ t.pc = 0#16 ∧ t.sp = 0#8 ∧ (∀ k : Fin 16, t.stack[k.val] = 0#16) ∧
    t.dt = 0#8 ∧ t.st = 0#8 ∧ (∀ a, Memory.read t.mem a = 0#8) ∧ (∀ px py, t.pixel px py = false) ∧
    t.run = .notLoaded ∧ t.fault = none

/-- LoadProgram copies the ROM to PROGRAM_START, sets `pc` to it and starts the machine; it writes nothing else (R290). -/
def Obligations.LoadProgramCopiesRom : Prop :=
  ∀ (s : State) (rom : List Byte), s.run = .notLoaded → rom.length ≤ 3584 →
    ∃ t, s.loadProgram rom = .next t ∧
      (∀ k (h : k < rom.length), Memory.read t.mem (Config.programStart + k) = rom[k]) ∧
      (∀ a, a < Config.programStart ∨ Config.programStart + rom.length ≤ a → Memory.read t.mem a = Memory.read s.mem a) ∧
      t.pc.toNat = Config.programStart ∧ t.run = .running ∧ t = { s with mem := t.mem, pc := t.pc, run := t.run }

/-- The host's loads are refused on a machine that runs, and a ROM of more than 3584 bytes always (R288, R291; decision D27; for
LoadFont log 10). That a ROM too long for a machine that already runs is refused by the name `alreadyLoaded` is the model's
choice (log 15). -/
def Obligations.LoadsRefused : Prop :=
  ∀ (s : State) (rom : List Byte),
    (s.run = .running → s.loadProgram rom = .refused .alreadyLoaded ∧ s.loadFont = .refused .alreadyLoaded) ∧
    (s.run = .notLoaded → rom.length > 3584 → s.loadProgram rom = .refused (.romTooLong 4096))

/-- LoadFont copies the 80 bytes of the font table to FONT_BASE and writes nothing else (R289); the font lies below
PROGRAM_START (decision D2). FONT_BASE and the table are the open parameters of log 5. -/
def Obligations.LoadFontCopiesTable : Prop :=
  ∀ s : State, s.run = .notLoaded →
    ∃ t, s.loadFont = .next t ∧
      (∀ k : Fin 80, Memory.read t.mem (Config.fontBase.val + k.val) = Config.fontTable[k.val]) ∧
      (∀ a, a < Config.fontBase.val ∨ Config.fontBase.val + 80 ≤ a → Memory.read t.mem a = Memory.read s.mem a) ∧
      Config.fontBase.val + 80 ≤ Config.programStart ∧ t = { s with mem := t.mem }

/-- What a program may assume at its first instruction (R292, marked derived): after reset, LoadFont and LoadProgram.
FONT_BASE and the table are the open parameters of log 5, bounded by D2; 0x200 is the decision D1, the zeroes D26. -/
def Obligations.EntryState : Prop :=
  ∀ (rom : List Byte), rom.length ≤ 3584 →
    ∃ t u, State.reset.loadFont = .next t ∧ t.loadProgram rom = .next u ∧
      u.pc = 0x200#16 ∧ u.Steps ∧ (∀ x, u.reg x = 0#8) ∧ u.iReg = 0#16 ∧ u.sp = 0#8 ∧ u.dt = 0#8 ∧ u.st = 0#8 ∧
      (∀ px py, u.pixel px py = false) ∧
      (∀ k : Fin 80, Memory.read u.mem (Config.fontBase.val + k.val) = Config.fontTable[k.val]) ∧
      (∀ k (h : k < rom.length), Memory.read u.mem (0x200 + k) = rom[k]) ∧
      (∀ a, (a < Config.fontBase.val ∨ Config.fontBase.val + 80 ≤ a) → (a < 0x200 ∨ 0x200 + rom.length ≤ a) →
        Memory.read u.mem a = 0#8)

/-! ## Memory and the stack -/

/-- The two memory primitives on one byte: in range, a write changes that one cell and a later read gives what was written; above
4095 both raise OutOfBounds with the address, and nothing is wrapped (R60, R61). -/
def Obligations.MemoryPrimitives : Prop :=
  ∀ (s : State) (a : Nat) (b : Byte),
    (a ≤ 4095 →
      s.memRead a 1 = .ok [Memory.read s.mem a] ∧
      ∃ t, s.memWrite a [b] = .ok t ∧ t.memRead a 1 = .ok [b] ∧ t = { s with mem := t.mem } ∧
        ∀ c, c ≠ a → Memory.read t.mem c = Memory.read s.mem c) ∧
    (a > 4095 →
      s.memRead a 1 = .error (.raised (.outOfBounds a)) ∧ s.memWrite a [b] = .error (.raised (.outOfBounds a)))

/-- Push and Pop (R29, R30): the value goes to `stack[SP]` and `SP` goes up; `SP` goes down and `stack[SP]` is returned; StackFull
at depth 16, StackEmpty at depth 0, nothing written then. -/
def Obligations.PushAndPop : Prop :=
  ∀ (s : State) (a : Word),
    (s.sp.toNat = 16 → s.push a = .error (.raised .stackFull)) ∧
    (∀ h : s.sp.toNat < 16, s.push a = .ok { s with stack := s.stack.set s.sp.toNat a h, sp := s.sp + 1#8 }) ∧
    (s.sp.toNat = 0 → s.pop = .error (.raised .stackEmpty)) ∧
    (∀ h : s.sp.toNat - 1 < 16, s.sp.toNat ≠ 0 → s.pop = .ok (s.stack[s.sp.toNat - 1], { s with sp := s.sp - 1#8 }))

/-- A `CALL` and a `RET` executed after it come back to the instruction after the `CALL`, with the stack pointer as before (source
example E9; decision D7). -/
def Obligations.CallThenRetReturns : Prop :=
  ∀ (s : State) (nnn : Addr), s.sp.toNat < 16 →
    ∃ t u, exec (.call nnn) s = .next t ∧ t.pc.toNat = nnn.toNat ∧ exec .ret t = .next u ∧
      u.pc = s.pc + 2#16 ∧ u = { s with pc := u.pc, stack := u.stack }

/-! ## Display -/

/-- CLS turns every pixel off and advances; nothing else changes (R141). -/
def Obligations.ClsClearsDisplay : Prop :=
  ∀ s : State, ∃ t, exec .cls s = .next t ∧ (∀ px py, t.pixel px py = false) ∧ t.pc = s.pc + 2#16 ∧
    t = { s with fb := t.fb, pc := t.pc }

/-- DRW in range: each pixel is its old value XOR the sprite bit over it, VF is 1 just when some pixel went from on to off, every
other register, memory and `I` are unchanged (R142, R143; the sprite geometry is the decision D17, VF read as a coordinate
before it is written D11). With `n = 0` nothing is drawn and VF becomes 0. -/
def Obligations.DrwXorsSprite : Prop :=
  ∀ (s : State) (x y : RegIdx) (n : Nat), n ≤ 15 → (n = 0 ∨ s.iReg.toNat + n - 1 ≤ 4095) →
    ∃ t, exec (.drw x y n) s = .next t ∧
      (∀ px py, t.pixel px py = true ↔ ¬ (s.pixel px py = true ↔ s.SpriteOver x y n px py)) ∧
      ((∃ px py, s.pixel px py = true ∧ t.pixel px py = false) → t.reg VF = 1#8) ∧
      ((¬ ∃ px py, s.pixel px py = true ∧ t.pixel px py = false) → t.reg VF = 0#8) ∧
      (∀ k, k ≠ VF → t.reg k = s.reg k) ∧ t.pc = s.pc + 2#16 ∧
      t = { s with fb := t.fb, v := t.v, pc := t.pc }

/-- Drawing a sprite again at the same place restores the framebuffer (R143 (g), marked derived; source example E7). The second draw
starts with the first one's registers, so that VF as a coordinate is no exception. -/
def Obligations.DrwTwiceRestoresDisplay : Prop :=
  ∀ (s : State) (x y : RegIdx) (n : Nat), n ≤ 15 → (n = 0 ∨ s.iReg.toNat + n - 1 ≤ 4095) →
    ∃ t u, exec (.drw x y n) s = .next t ∧ exec (.drw x y n) { t with v := s.v } = .next u ∧ u.fb = s.fb

/-- A memory instruction one of whose addresses is above 4095 raises OutOfBounds with the lowest such address and changes nothing
else (R244; the index is the decision D25). -/
def Obligations.MemoryInstructionsOutOfBounds : Prop :=
  ∀ (s : State) (x y : RegIdx) (n : Nat),
    (n > 0 → s.iReg.toNat + n - 1 > 4095 →
      exec (.drw x y n) s = .next { s with fault := some (.outOfBounds (max s.iReg.toNat 4096)) }) ∧
    (s.iReg.toNat + 2 > 4095 →
      exec (.ldB x) s = .next { s with fault := some (.outOfBounds (max s.iReg.toNat 4096)) }) ∧
    (s.iReg.toNat + x.toNat > 4095 →
      exec (.ldMemRegs x) s = .next { s with fault := some (.outOfBounds (max s.iReg.toNat 4096)) } ∧
      exec (.ldRegsMem x) s = .next { s with fault := some (.outOfBounds (max s.iReg.toNat 4096)) })

/-! ## Control flow -/

/-- RET: the most recently pushed address becomes `pc`, with nothing added (decision D7), and `SP` goes down; the slot keeps its
value (R151, R28). -/
def Obligations.RetPopsReturnAddress : Prop :=
  ∀ (s : State) (h : s.sp.toNat - 1 < 16), s.sp.toNat ≠ 0 →
    ∃ t, exec .ret s = .next t ∧ t.pc = s.stack[s.sp.toNat - 1] ∧ t.sp.toNat = s.sp.toNat - 1 ∧
      t = { s with pc := t.pc, sp := t.sp }

/-- CALL with 16 calls outstanding raises StackFull, RET with none StackEmpty; nothing else changes (R242, R243). -/
def Obligations.CallAndRetStackFaults : Prop :=
  ∀ (s : State) (nnn : Addr),
    (s.sp.toNat = 16 → exec (.call nnn) s = .next { s with fault := some .stackFull }) ∧
    (s.sp.toNat = 0 → exec .ret s = .next { s with fault := some .stackEmpty })

/-- JP: `pc` becomes the 12-bit address and nothing else changes; a jump to itself leaves the whole state unchanged (R152). -/
def Obligations.JpSetsPc : Prop :=
  ∀ (s : State) (nnn : Addr), decodeWord (0x1#4 ++ nnn) = some (.jp nnn) ∧
    ∃ t, exec (.jp nnn) s = .next t ∧ t.pc.toNat = nnn.toNat ∧ t = { s with pc := t.pc } ∧
      (nnn.toNat = s.pc.toNat → t = s)

/-- CALL with a free slot: the address after the `CALL` goes to the slot `SP` (decision D7), `SP` goes up, `pc` becomes the
12-bit address; every other slot and everything else is unchanged (R153). -/
def Obligations.CallPushesReturnAddress : Prop :=
  ∀ (s : State) (nnn : Addr), s.sp.toNat < 16 →
    ∃ t, exec (.call nnn) s = .next t ∧ t.pc.toNat = nnn.toNat ∧ t.sp.toNat = s.sp.toNat + 1 ∧
      (∀ k : Fin 16, t.stack[k.val] = if k.val = s.sp.toNat then s.pc + 2#16 else s.stack[k.val]) ∧
      t = { s with pc := t.pc, sp := t.sp, stack := t.stack }

/-- SE Vx,nn and SNE Vx,nn: `pc + 4` if the condition holds, else `pc + 2`; nothing else changes (R154, R155). -/
def Obligations.SkipsOnImmediate : Prop :=
  ∀ (s : State) (x : RegIdx) (nn : Byte),
    (∃ t, exec (.seImm x nn) s = .next t ∧ t.pc = s.pc + (if (s.reg x).toNat = nn.toNat then 4#16 else 2#16) ∧
      t = { s with pc := t.pc }) ∧
    (∃ t, exec (.sneImm x nn) s = .next t ∧ t.pc = s.pc + (if (s.reg x).toNat = nn.toNat then 2#16 else 4#16) ∧
      t = { s with pc := t.pc })

/-- SE Vx,Vy and SNE Vx,Vy: `pc + 4` if the condition holds, else `pc + 2`; nothing else changes (R156, R157). -/
def Obligations.SkipsOnRegisters : Prop :=
  ∀ (s : State) (x y : RegIdx),
    (∃ t, exec (.seReg x y) s = .next t ∧
      t.pc = s.pc + (if (s.reg x).toNat = (s.reg y).toNat then 4#16 else 2#16) ∧ t = { s with pc := t.pc }) ∧
    (∃ t, exec (.sneReg x y) s = .next t ∧
      t.pc = s.pc + (if (s.reg x).toNat = (s.reg y).toNat then 2#16 else 4#16) ∧ t = { s with pc := t.pc })

/-- JP V0,nnn: `pc` becomes the sum, over the naturals, of the immediate and V0, not reduced modulo 4096 (a sentence R158
marks as derived); nothing else changes (R158). -/
def Obligations.JpV0AddsRegisterZero : Prop :=
  ∀ (s : State) (nnn : Addr), ∃ t, exec (.jpV0 nnn) s = .next t ∧
    t.pc.toNat = nnn.toNat + (s.reg 0#4).toNat ∧ t = { s with pc := t.pc }

/-! ## Registers and ALU -/

/-- LD Vx,nn and LD Vx,Vy: `V[x]` becomes the immediate or `V[y]`; every other register and everything else but `pc` is unchanged
(R173, R175). -/
def Obligations.LoadsIntoRegister : Prop :=
  ∀ (s : State) (x y : RegIdx) (nn : Byte),
    (∃ t, exec (.ldImm x nn) s = .next t ∧ t.reg x = nn ∧ (∀ k, k ≠ x → t.reg k = s.reg k) ∧ t.pc = s.pc + 2#16 ∧
      t = { s with v := t.v, pc := t.pc }) ∧
    (∃ t, exec (.ldReg x y) s = .next t ∧ t.reg x = s.reg y ∧ (∀ k, k ≠ x → t.reg k = s.reg k) ∧ t.pc = s.pc + 2#16 ∧
      t = { s with v := t.v, pc := t.pc })

/-- ADD Vx,nn: the sum modulo 256; no flag is set, every other register (VF among them) is unchanged (R174). -/
def Obligations.AddImmediateSetsNoFlag : Prop :=
  ∀ (s : State) (x : RegIdx) (nn : Byte), ∃ t, exec (.addImm x nn) s = .next t ∧
    (t.reg x).toNat = ((s.reg x).toNat + nn.toNat) % 256 ∧ (∀ k, k ≠ x → t.reg k = s.reg k) ∧ t.pc = s.pc + 2#16 ∧
    t = { s with v := t.v, pc := t.pc }

/-- OR, AND, XOR act on the 8 bits independently (R170) and leave VF alone unless it is `V[x]` (R176 to R178; decision D14). -/
def Obligations.BitwiseOpsLeaveFlag : Prop :=
  ∀ (s : State) (x y : RegIdx),
    (∃ t, exec (.orReg x y) s = .next t ∧
      (∀ j, (t.reg x).getLsbD j = ((s.reg x).getLsbD j || (s.reg y).getLsbD j)) ∧
      (∀ k, k ≠ x → t.reg k = s.reg k) ∧ t.pc = s.pc + 2#16 ∧ t = { s with v := t.v, pc := t.pc }) ∧
    (∃ t, exec (.andReg x y) s = .next t ∧
      (∀ j, (t.reg x).getLsbD j = ((s.reg x).getLsbD j && (s.reg y).getLsbD j)) ∧
      (∀ k, k ≠ x → t.reg k = s.reg k) ∧ t.pc = s.pc + 2#16 ∧ t = { s with v := t.v, pc := t.pc }) ∧
    (∃ t, exec (.xorReg x y) s = .next t ∧
      (∀ j, (t.reg x).getLsbD j = ((s.reg x).getLsbD j ^^ (s.reg y).getLsbD j)) ∧
      (∀ k, k ≠ x → t.reg k = s.reg k) ∧ t.pc = s.pc + 2#16 ∧ t = { s with v := t.v, pc := t.pc })

/-- ADD Vx,Vy: the sum modulo 256 and VF the carry; with `x = 15` the flag remains (R179; the order is R172's, decision D11). -/
def Obligations.AddSetsCarry : Prop :=
  ∀ (s : State) (x y : RegIdx), ∃ t, exec (.addReg x y) s = .next t ∧
    (x ≠ VF → (t.reg x).toNat = ((s.reg x).toNat + (s.reg y).toNat) % 256) ∧
    t.reg VF = (if (s.reg x).toNat + (s.reg y).toNat > 255 then 1#8 else 0#8) ∧
    (∀ k, k ≠ x → k ≠ VF → t.reg k = s.reg k) ∧ t.pc = s.pc + 2#16 ∧ t = { s with v := t.v, pc := t.pc }

/-- SUB Vx,Vy: the difference modulo 256 and VF 1 when no borrow occurred; with `x = 15` the flag remains (R180; the order is
R172's, decision D11). -/
def Obligations.SubSetsNoBorrow : Prop :=
  ∀ (s : State) (x y : RegIdx), ∃ t, exec (.subReg x y) s = .next t ∧
    (x ≠ VF → ((t.reg x).toNat : Int) = (((s.reg x).toNat : Int) - (s.reg y).toNat) % 256) ∧
    t.reg VF = (if (s.reg x).toNat ≥ (s.reg y).toNat then 1#8 else 0#8) ∧
    (∀ k, k ≠ x → k ≠ VF → t.reg k = s.reg k) ∧ t.pc = s.pc + 2#16 ∧ t = { s with v := t.v, pc := t.pc }

/-- SUBN Vx,Vy: the reversed difference modulo 256 and VF 1 when no borrow occurred (R182; the flag is the decision D13, the order
D11). -/
def Obligations.SubnSetsNoBorrow : Prop :=
  ∀ (s : State) (x y : RegIdx), ∃ t, exec (.subnReg x y) s = .next t ∧
    (x ≠ VF → ((t.reg x).toNat : Int) = (((s.reg y).toNat : Int) - (s.reg x).toNat) % 256) ∧
    t.reg VF = (if (s.reg y).toNat ≥ (s.reg x).toNat then 1#8 else 0#8) ∧
    (∀ k, k ≠ x → k ≠ VF → t.reg k = s.reg k) ∧ t.pc = s.pc + 2#16 ∧ t = { s with v := t.v, pc := t.pc }

/-- SHR Vx and SHL Vx: `V[x]` is shifted in place by one, VF receives the bit shifted out, `y` plays no part (R181, R183; the
source operand is the decision D12, the order of result and flag D11). -/
def Obligations.ShiftsInPlace : Prop :=
  ∀ (s : State) (x y : RegIdx),
    (∃ t, exec (.shr x y) s = .next t ∧ (x ≠ VF → (t.reg x).toNat = (s.reg x).toNat / 2) ∧
      (t.reg VF).toNat = (s.reg x).toNat % 2 ∧
      (∀ k, k ≠ x → k ≠ VF → t.reg k = s.reg k) ∧ t.pc = s.pc + 2#16 ∧ t = { s with v := t.v, pc := t.pc }) ∧
    (∃ t, exec (.shl x y) s = .next t ∧ (x ≠ VF → (t.reg x).toNat = (s.reg x).toNat * 2 % 256) ∧
      (t.reg VF).toNat = (s.reg x).toNat / 128 ∧
      (∀ k, k ≠ x → k ≠ VF → t.reg k = s.reg k) ∧ t.pc = s.pc + 2#16 ∧ t = { s with v := t.v, pc := t.pc })

/-- RND Vx,nn: the random source's byte AND the mask (R184). The byte is the free value of log 1 (decision D22), drawn by the
model's own count (log 4), so this holds for every draw. -/
def Obligations.RndMasksFreeByte : Prop :=
  ∀ (s : State) (x : RegIdx) (nn : Byte), ∃ t, exec (.rnd x nn) s = .next t ∧
    (∀ j, (t.reg x).getLsbD j = ((Config.randomByte s.draws).getLsbD j && nn.getLsbD j)) ∧
    (∀ k, k ≠ x → t.reg k = s.reg k) ∧ t.pc = s.pc + 2#16 ∧ t = { s with v := t.v, pc := t.pc }

/-! ## Address register and memory -/

/-- LD I,nnn: `I` becomes the 12-bit immediate; nothing else but `pc` changes (R201). -/
def Obligations.LdISetsAddress : Prop :=
  ∀ (s : State) (nnn : Addr), ∃ t, exec (.ldI nnn) s = .next t ∧ t.iReg.toNat = nnn.toNat ∧ t.pc = s.pc + 2#16 ∧
    t = { s with iReg := t.iReg, pc := t.pc }

/-- ADD I,Vx: the sum wraps at 65536 only; VF is not written (R202; decision D14). -/
def Obligations.AddIWrapsAt16Bits : Prop :=
  ∀ (s : State) (x : RegIdx), ∃ t, exec (.addI x) s = .next t ∧
    t.iReg.toNat = (s.iReg.toNat + (s.reg x).toNat) % 65536 ∧ t.pc = s.pc + 2#16 ∧
    t = { s with iReg := t.iReg, pc := t.pc }

/-- LD F,Vx: `I` becomes the address of the glyph of the low nibble, whatever memory holds (R203). FONT_BASE is the open
parameter of log 5, with no value but the bound of the decision D2. -/
def Obligations.LdFAddressesGlyph : Prop :=
  ∀ (s : State) (x : RegIdx), ∃ t, exec (.ldF x) s = .next t ∧
    t.iReg.toNat = Config.fontBase.val + 5 * ((s.reg x).toNat % 16) ∧ t.pc = s.pc + 2#16 ∧
    t = { s with iReg := t.iReg, pc := t.pc }

/-- LD B,Vx in range: the hundreds, tens and ones digit at `I`, `I+1`, `I+2` (the order is the decision D16); every other byte, `I`
(D15) and everything else but `pc` is unchanged (R204). -/
def Obligations.LdBStoresDecimalDigits : Prop :=
  ∀ (s : State) (x : RegIdx), s.iReg.toNat + 2 ≤ 4095 → ∃ t, exec (.ldB x) s = .next t ∧
    (Memory.read t.mem s.iReg.toNat).toNat = (s.reg x).toNat / 100 ∧
    (Memory.read t.mem (s.iReg.toNat + 1)).toNat = (s.reg x).toNat / 10 % 10 ∧
    (Memory.read t.mem (s.iReg.toNat + 2)).toNat = (s.reg x).toNat % 10 ∧
    (∀ a, a < s.iReg.toNat ∨ s.iReg.toNat + 3 ≤ a → Memory.read t.mem a = Memory.read s.mem a) ∧
    t.pc = s.pc + 2#16 ∧ t = { s with mem := t.mem, pc := t.pc }

/-- LD [I],Vx in range: V0 to Vx at consecutive addresses from `I`; every other byte, every register, `I` (D15) and everything else
but `pc` is unchanged (R205). -/
def Obligations.RegisterDump : Prop :=
  ∀ (s : State) (x : RegIdx), s.iReg.toNat + x.toNat ≤ 4095 → ∃ t, exec (.ldMemRegs x) s = .next t ∧
    (∀ k : RegIdx, k.toNat ≤ x.toNat → Memory.read t.mem (s.iReg.toNat + k.toNat) = s.reg k) ∧
    (∀ a, a < s.iReg.toNat ∨ s.iReg.toNat + x.toNat < a → Memory.read t.mem a = Memory.read s.mem a) ∧
    t.pc = s.pc + 2#16 ∧ t = { s with mem := t.mem, pc := t.pc }

/-- LD Vx,[I] in range: V0 to Vx become the bytes from `I` up; every register above Vx, memory, `I` (D15) and everything else but
`pc` is unchanged (R206). -/
def Obligations.RegisterLoad : Prop :=
  ∀ (s : State) (x : RegIdx), s.iReg.toNat + x.toNat ≤ 4095 → ∃ t, exec (.ldRegsMem x) s = .next t ∧
    (∀ k : RegIdx, t.reg k =
      if k.toNat ≤ x.toNat then Memory.read s.mem (s.iReg.toNat + k.toNat) else s.reg k) ∧
    t.pc = s.pc + 2#16 ∧ t = { s with v := t.v, pc := t.pc }

/-! ## Keypad and timers -/

/-- SKP and SKNP on a key number 0 to 15: the skip follows the keypad's answer, a free value; nothing but `pc` changes (R221,
R222, R220; that the whole value names the key is the decision D19). -/
def Obligations.SkipsOnKey : Prop :=
  ∀ (s : State) (x : RegIdx), (s.reg x).toNat ≤ 15 →
    (∃ t, exec (.skp x) s = .next t ∧
      t.pc = s.pc + (if Config.keyDown s.draws (BitVec.ofNat 4 (s.reg x).toNat) = true then 4#16 else 2#16) ∧
      t = { s with pc := t.pc }) ∧
    (∃ t, exec (.sknp x) s = .next t ∧
      t.pc = s.pc + (if Config.keyDown s.draws (BitVec.ofNat 4 (s.reg x).toNat) = true then 2#16 else 4#16) ∧
      t = { s with pc := t.pc })

/-- SKP and SKNP on a value above 15 raise OutOfBounds with the value and change nothing else (R221, R222; decision D19). -/
def Obligations.KeyNumberOutOfBounds : Prop :=
  ∀ (s : State) (x : RegIdx), (s.reg x).toNat > 15 →
    exec (.skp x) s = .next { s with fault := some (.outOfBounds (s.reg x).toNat) } ∧
    exec (.sknp x) s = .next { s with fault := some (.outOfBounds (s.reg x).toNat) }

/-- LD Vx,K: with no key event the whole state is unchanged; with one, `V[x]` becomes the key and `pc` advances, nothing else
changes (R223; decision D21). The event is a free value. -/
def Obligations.KeyWait : Prop :=
  ∀ (s : State) (x : RegIdx), ∃ t, exec (.ldVxK x) s = .next t ∧
    (Config.keyEvent s.draws = none → t = s) ∧
    ∀ key, Config.keyEvent s.draws = some key →
      (t.reg x).toNat = key.toNat ∧ (∀ k, k ≠ x → t.reg k = s.reg k) ∧ t.pc = s.pc + 2#16 ∧
      t = { s with v := t.v, pc := t.pc }

/-- The output `waiting_for_key` of a step at a key wait is raised just when there is no event, and then the step leaves everything
but the timers and the model's own count (log 4) as it was; where no step exists, or the bytes at `pc` are no key wait, it is not raised
(R41, R223; decision D21; the event is the free value of log 2, the output a function of the state before the step, log 9). -/
def Obligations.WaitingOutputDuringKeyWait : Prop :=
  ∀ s : State,
    (∀ x rest, s.Steps → decode s.fetchBytes = .ok (.ldVxK x, rest) →
      s.waitingForKey = (Config.keyEvent (s.draws + 1)).isNone ∧
      (s.waitingForKey = true → ∃ t, step s = .next t ∧ t.untimed = s.untimed)) ∧
    (¬ s.Steps → s.waitingForKey = false) ∧
    ((∀ x rest, decode s.fetchBytes ≠ .ok (.ldVxK x, rest)) → s.waitingForKey = false)

/-- LD Vx,DT, LD DT,Vx and LD ST,Vx copy the value; nothing else but `pc` changes (R231, R232, R233). -/
def Obligations.TimerMoves : Prop :=
  ∀ (s : State) (x : RegIdx),
    (∃ t, exec (.ldVxDt x) s = .next t ∧ t.reg x = s.dt ∧ (∀ k, k ≠ x → t.reg k = s.reg k) ∧ t.pc = s.pc + 2#16 ∧
      t = { s with v := t.v, pc := t.pc }) ∧
    (∃ t, exec (.ldDtVx x) s = .next t ∧ t.dt = s.reg x ∧ t.pc = s.pc + 2#16 ∧ t = { s with dt := t.dt, pc := t.pc }) ∧
    (∃ t, exec (.ldStVx x) s = .next t ∧ t.st = s.reg x ∧ t.pc = s.pc + 2#16 ∧ t = { s with st := t.st, pc := t.pc })

/-- A parked machine stays parked: each step leaves everything but the timers (and the model's own count, log 4) as it was, and
the timers only count down (R125, marked derived; the number of ticks is free, log 3). -/
def Obligations.ParkedStaysParked : Prop :=
  ∀ s : State, s.Parked → ∃ t, step s = .next t ∧ t.Parked ∧ t.untimed = s.untimed ∧
    t.dt.toNat ≤ s.dt.toNat ∧ t.st.toNat ≤ s.st.toNat
end

