-- ==== Sys2Proof/Laws/Decode.lean ====
section
/-! SUPPORT. The fields of a word laid out as the formats of R93 lay it out, and the word of its own fields. -/

namespace Sys2Proof

/-! ## Format NNN -/

theorem opField_nnn (o : BitVec 4) (nnn : Addr) : opField (o ++ nnn) = o := by
  apply BitVec.eq_of_getLsbD_eq
  intro j hj
  simp only [opField, BitVec.getLsbD_append, BitVec.getLsbD_extractLsb']
  simp [hj, show ¬ 12 + j < 12 by omega, show 12 + j - 12 = j by omega]

theorem nnnField_nnn (o : BitVec 4) (nnn : Addr) : nnnField (o ++ nnn) = nnn := by
  apply BitVec.eq_of_getLsbD_eq
  intro j hj
  simp only [nnnField, BitVec.getLsbD_append, BitVec.getLsbD_extractLsb']
  simp [hj]

/-! ## Formats XNN and X -/

theorem opField_xnn (o x : BitVec 4) (nn : Byte) : opField (o ++ x ++ nn) = o := by
  apply BitVec.eq_of_getLsbD_eq
  intro j hj
  simp only [opField, BitVec.getLsbD_append, BitVec.getLsbD_extractLsb']
  simp [hj, show ¬ 12 + j < 8 by omega, show ¬ 12 + j - 8 < 4 by omega, show 12 + j - 8 - 4 = j by omega]

theorem xField_xnn (o x : BitVec 4) (nn : Byte) : xField (o ++ x ++ nn) = x := by
  apply BitVec.eq_of_getLsbD_eq
  intro j hj
  simp only [xField, BitVec.getLsbD_append, BitVec.getLsbD_extractLsb']
  simp [hj, show ¬ 8 + j < 8 by omega, show 8 + j - 8 = j by omega]

theorem nnField_xnn (o x : BitVec 4) (nn : Byte) : nnField (o ++ x ++ nn) = nn := by
  apply BitVec.eq_of_getLsbD_eq
  intro j hj
  simp only [nnField, BitVec.getLsbD_append, BitVec.getLsbD_extractLsb']
  simp [hj]

/-! ## Formats XY and XYN -/

theorem opField_xyn (o x y n : BitVec 4) : opField (o ++ x ++ y ++ n) = o := by
  apply BitVec.eq_of_getLsbD_eq
  intro j hj
  simp only [opField, BitVec.getLsbD_append, BitVec.getLsbD_extractLsb']
  simp [hj, show ¬ 12 + j < 4 by omega, show ¬ 12 + j - 4 < 4 by omega, show ¬ 12 + j - 4 - 4 < 4 by omega, show 12 + j - 4 - 4 - 4 = j by omega]

theorem xField_xyn (o x y n : BitVec 4) : xField (o ++ x ++ y ++ n) = x := by
  apply BitVec.eq_of_getLsbD_eq
  intro j hj
  simp only [xField, BitVec.getLsbD_append, BitVec.getLsbD_extractLsb']
  simp [hj, show ¬ 8 + j < 4 by omega, show ¬ 8 + j - 4 < 4 by omega, show 8 + j - 4 - 4 = j by omega]

theorem yField_xyn (o x y n : BitVec 4) : yField (o ++ x ++ y ++ n) = y := by
  apply BitVec.eq_of_getLsbD_eq
  intro j hj
  simp only [yField, BitVec.getLsbD_append, BitVec.getLsbD_extractLsb']
  simp [hj, show ¬ 4 + j < 4 by omega, show 4 + j - 4 = j by omega]

theorem nField_xyn (o x y n : BitVec 4) : nField (o ++ x ++ y ++ n) = n := by
  apply BitVec.eq_of_getLsbD_eq
  intro j hj
  simp only [nField, BitVec.getLsbD_append, BitVec.getLsbD_extractLsb']
  simp [hj]

/-! ## A word is made of its fields -/

theorem bytes_append (w : Word) : highByte w ++ lowByte w = w := by
  apply BitVec.eq_of_getLsbD_eq
  intro j hj
  simp only [highByte, lowByte, BitVec.getLsbD_append, BitVec.getLsbD_extractLsb']
  by_cases h : j < 8
  · simp [h]
  · simp [h, show j - 8 < 8 by omega, show 8 + (j - 8) = j by omega]

theorem fields_nnn (w : Word) : opField w ++ nnnField w = w := by
  apply BitVec.eq_of_getLsbD_eq
  intro j hj
  simp only [opField, nnnField, BitVec.getLsbD_append, BitVec.getLsbD_extractLsb']
  by_cases h : j < 12
  · simp [h]
  · simp [h, show j - 12 < 4 by omega, show 12 + (j - 12) = j by omega]

theorem fields_xnn (w : Word) : opField w ++ xField w ++ nnField w = w := by
  apply BitVec.eq_of_getLsbD_eq
  intro j hj
  simp only [opField, xField, nnField, BitVec.getLsbD_append, BitVec.getLsbD_extractLsb']
  by_cases h : j < 8
  · simp [h]
  · by_cases h2 : j - 8 < 4
    · simp [h, h2, show 8 + (j - 8) = j by omega]
    · simp [h, h2, show j - 8 - 4 < 4 by omega, show 12 + (j - 8 - 4) = j by omega]

theorem fields_xyn (w : Word) : opField w ++ xField w ++ yField w ++ nField w = w := by
  apply BitVec.eq_of_getLsbD_eq
  intro j hj
  simp only [opField, xField, yField, nField, BitVec.getLsbD_append, BitVec.getLsbD_extractLsb']
  by_cases h : j < 4
  · simp [h]
  · by_cases h2 : j - 4 < 4
    · simp [h, h2, show 4 + (j - 4) = j by omega]
    · by_cases h3 : j - 4 - 4 < 4
      · simp [h, h2, h3, show 8 + (j - 4 - 4) = j by omega]
      · simp [h, h2, h3, show j - 4 - 4 - 4 < 4 by omega, show 12 + (j - 4 - 4 - 4) = j by omega]

/-- The word read from a word's own bytes, high byte first (R62). -/
theorem wordOfBytes_bytes (w : Word) : wordOfBytes (highByte w) (lowByte w) = w := bytes_append w

/-- What decoding two bytes answers, by what their word decodes to. -/
theorem decode_bytes (w : Word) (rest : List Byte) :
    decode (bytesOfWord w ++ rest) =
      match decodeWord w with
      | some i => .ok (i, rest)
      | none => .error (.illegalInstruction w) := by
  cases h : decodeWord w <;> simp [bytesOfWord, decode, wordOfBytes_bytes, h]

end Sys2Proof
end

