-- ==== Sys2Proof/Laws/Ops.lean ====
section
/-! SUPPORT. What the shared operations do, one lemma each, so that later proofs cite them and do not unfold. -/

namespace Sys2Proof.Machine

/-! ## Registers -/

/-- A register read after a register write. -/
theorem State.reg_setReg (s : State) (x k : RegIdx) (b : Byte) :
    (s.setReg x b).reg k = if k = x then b else s.reg k := by
  simp only [State.reg, State.setReg, Vector.getElem_set]
  by_cases h : k = x
  · simp [h]
  · have : x.toNat ≠ k.toNat := fun e => h (BitVec.eq_of_toNat_eq e.symm)
    simp [h, this]

/-- A register read depends on the registers alone. -/
theorem State.reg_congr {s t : State} (h : t.v = s.v) (k : RegIdx) : t.reg k = s.reg k := by simp only [State.reg, h]

@[simp] theorem State.reg_advance (s : State) (k : RegIdx) : s.advance.reg k = s.reg k := rfl
@[simp] theorem State.reg_jump (s : State) (a : Word) (k : RegIdx) : (s.jump a).reg k = s.reg k := rfl

theorem State.reg_setFlag (s : State) (c : Bool) (k : RegIdx) :
    (s.setFlag c).reg k = if k = VF then flagByte c else s.reg k := State.reg_setReg s VF k (flagByte c)

/-- The registers after a flag-writing ALU instruction: the flag wins in VF (R172). -/
theorem State.reg_writeResultThenFlag (s : State) (x k : RegIdx) (r : Byte) (c : Bool) :
    (s.writeResultThenFlag x r c).reg k = if k = VF then flagByte c else if k = x then r else s.reg k := by
  simp only [State.writeResultThenFlag, State.reg_advance, State.reg_setFlag, State.reg_setReg]

/-- Writing registers `k`, `k+1`, ... from a list of bytes. -/
theorem loadRegs_getElem (bs : List Byte) (v : Vector Byte 16) (k j : Nat) (hj : j < 16) :
    (loadRegs v k bs)[j] = if h : k ≤ j ∧ j - k < bs.length then bs[j - k] else v[j] := by
  induction bs generalizing v k with
  | nil => simp [loadRegs]
  | cons b bs ih =>
    simp only [loadRegs, ih, Vector.getElem_setIfInBounds, List.length_cons]
    by_cases h1 : k + 1 ≤ j
    · have e : j - k = (j - (k + 1)) + 1 := by omega
      have ne : ¬ k = j := by omega
      by_cases h2 : j - (k + 1) < bs.length
      · rw [dif_pos ⟨h1, h2⟩, dif_pos ⟨by omega, by omega⟩]
        simp [e]
      · rw [dif_neg (by omega), dif_neg (by omega), if_neg ne]
    · rw [dif_neg (by omega)]
      by_cases h3 : k = j
      · subst h3; simp
      · rw [if_neg h3, dif_neg (by omega)]

/-- The registers a dump stores (R205). -/
theorem State.regsUpTo_length (s : State) (x : RegIdx) : (s.regsUpTo x).length = x.toNat + 1 := by
  have := x.isLt
  simp [State.regsUpTo]; omega

theorem State.regsUpTo_getElem (s : State) (x k : RegIdx) (h : k.toNat < (s.regsUpTo x).length) :
    (s.regsUpTo x)[k.toNat] = s.reg k := by
  simp [State.regsUpTo, State.reg]

/-! ## Memory -/

@[simp] theorem Memory.read_nil (a : Nat) : Memory.read [] a = 0#8 := rfl

theorem Memory.read_cons (c : Host.Cell) (m : Memory) (a : Nat) :
    Memory.read (c :: m) a = if c.1 = a then c.2 else Memory.read m a := rfl

theorem Memory.drop_nil (a : Nat) : Memory.drop [] a = [] := rfl

theorem Memory.drop_cons (c : Host.Cell) (m : Memory) (a : Nat) :
    Memory.drop (c :: m) a = if c.1 = a then Memory.drop m a else c :: Memory.drop m a := by
  by_cases h : c.1 = a <;> simp [Memory.drop, h]

theorem Memory.read_drop (m : Memory) (a k : Nat) :
    Memory.read (Memory.drop m a) k = if k = a then 0#8 else Memory.read m k := by
  induction m with
  | nil => simp [Memory.drop_nil]
  | cons c m ih =>
    rw [Memory.drop_cons, Memory.read_cons]
    by_cases h : c.1 = a
    · rw [if_pos h, ih]
      by_cases hk : k = a
      · simp [hk]
      · simp [hk, show ¬ c.1 = k by omega]
    · rw [if_neg h, Memory.read_cons, ih]
      by_cases hk : c.1 = k
      · simp [hk, show ¬ k = a by omega]
      · simp [hk]

theorem Memory.read_place (m : Memory) (a k : Nat) (b : Byte) (h : Memory.drop m a = m) :
    Memory.read (Memory.place a b m) k = if k = a then b else Memory.read m k := by
  induction m with
  | nil =>
    simp only [Memory.place, Memory.read_cons, Memory.read_nil]
    simp [eq_comm]
  | cons c m ih =>
    rw [Memory.drop_cons] at h
    have hne : c.1 ≠ a := by
      intro e
      rw [if_pos e] at h
      have hl := congrArg List.length h
      have hle : (Memory.drop m a).length ≤ m.length := List.length_filter_le _ _
      simp at hl; omega
    rw [if_neg hne] at h
    have h' : Memory.drop m a = m := by simpa using h
    by_cases hlt : a < c.1
    · simp only [Memory.place, hlt, if_true, Memory.read_cons]
      by_cases hk : a = k
      · simp [hk]
      · simp [hk, show ¬ k = a by omega]
    · simp only [Memory.place, hlt, if_false, Memory.read_cons, ih h']
      by_cases hk : c.1 = k
      · simp [hk, show ¬ k = a by omega]
      · simp [hk]

theorem Memory.drop_drop (m : Memory) (a : Nat) : Memory.drop (Memory.drop m a) a = Memory.drop m a := by
  simp [Memory.drop]

/-- A byte read after a byte write: the byte written there, every other address as before (R61, R71). -/
theorem Memory.read_write (m : Memory) (a k : Nat) (b : Byte) :
    Memory.read (Memory.write m a b) k = if k = a then b else Memory.read m k := by
  unfold Memory.write Memory.unlisted
  by_cases hb : b = 0#8
  · rw [if_pos hb, Memory.read_drop, hb]
  · rw [if_neg hb, Memory.read_place _ _ _ _ (Memory.drop_drop m a), Memory.read_drop]
    by_cases hk : k = a <;> simp [hk]

/-- A byte read after a run of byte writes from `a` up. -/
theorem Memory.read_writeBytes (bs : List Byte) (m : Memory) (a k : Nat) :
    Memory.read (Memory.writeBytes m a bs) k =
      if h : a ≤ k ∧ k - a < bs.length then bs[k - a] else Memory.read m k := by
  induction bs generalizing m a with
  | nil => simp [Memory.writeBytes]
  | cons b bs ih =>
    simp only [Memory.writeBytes, ih, Memory.read_write, List.length_cons]
    by_cases h1 : a + 1 ≤ k
    · have e : k - a = (k - (a + 1)) + 1 := by omega
      by_cases h2 : k - (a + 1) < bs.length
      · rw [dif_pos ⟨h1, h2⟩, dif_pos ⟨by omega, by omega⟩]
        simp [e]
      · rw [dif_neg (by omega), dif_neg (by omega), if_neg (by omega)]
    · rw [dif_neg (by omega)]
      by_cases h3 : k = a
      · subst h3; simp
      · rw [if_neg h3, dif_neg (by omega)]

theorem Memory.read_writeBytes_outside (bs : List Byte) (m : Memory) (a k : Nat) (h : k < a ∨ a + bs.length ≤ k) :
    Memory.read (Memory.writeBytes m a bs) k = Memory.read m k := by
  rw [Memory.read_writeBytes, dif_neg (by omega)]

theorem Memory.read_writeBytes_inside (bs : List Byte) (m : Memory) (a j : Nat) (h : j < bs.length) :
    Memory.read (Memory.writeBytes m a bs) (a + j) = bs[j] := by
  rw [Memory.read_writeBytes, dif_pos ⟨by omega, by omega⟩]
  simp

theorem Memory.readBytes_length (m : Memory) (a n : Nat) : (Memory.readBytes m a n).length = n := by
  induction n generalizing a with
  | zero => rfl
  | succ n ih => simp [Memory.readBytes, ih]

theorem Memory.readBytes_getElem (m : Memory) (a n j : Nat) (h : j < (Memory.readBytes m a n).length) :
    (Memory.readBytes m a n)[j] = Memory.read m (a + j) := by
  induction n generalizing a j with
  | zero => simp [Memory.readBytes] at h
  | succ n ih =>
    cases j with
    | zero => simp [Memory.readBytes]
    | succ j =>
      simp only [Memory.readBytes, List.getElem_cons_succ]
      rw [ih]; congr 1; omega

/-! ### The canonical form is kept -/

theorem Memory.wf_cons (c : Host.Cell) (m : Memory) :
    Memory.wf (c :: m) = true ↔ c.1 < 4096 ∧ c.2 ≠ 0#8 ∧ (∀ d ∈ m, c.1 < d.1) ∧ Memory.wf m = true := by
  simp only [Memory.wf, Bool.and_eq_true, decide_eq_true_eq, List.all_eq_true, and_assoc]
  rfl

theorem Memory.mem_place (m : Memory) (a : Nat) (b : Byte) (d : Host.Cell) :
    d ∈ Memory.place a b m → d = (a, b) ∨ d ∈ m := by
  induction m with
  | nil => simp [Memory.place]
  | cons c m ih =>
    simp only [Memory.place]
    split
    · simp
    · intro h
      rcases List.mem_cons.mp h with h | h
      · simp [h]
      · rcases ih h with h | h <;> simp [h]

theorem Memory.wf_drop (m : Memory) (a : Nat) (h : Memory.wf m = true) : Memory.wf (Memory.drop m a) = true := by
  induction m with
  | nil => rfl
  | cons c m ih =>
    obtain ⟨h1, h2, h3, h4⟩ := (Memory.wf_cons c m).mp h
    rw [Memory.drop_cons]
    split
    · exact ih h4
    · exact (Memory.wf_cons _ _).mpr ⟨h1, h2, fun d hd => h3 d (List.mem_filter.mp hd).1, ih h4⟩

theorem Memory.wf_place (m : Memory) (a : Nat) (b : Byte) (ha : a < 4096) (hb : b ≠ 0#8)
    (hd : ∀ d ∈ m, d.1 ≠ a) (h : Memory.wf m = true) : Memory.wf (Memory.place a b m) = true := by
  induction m with
  | nil => exact (Memory.wf_cons _ _).mpr ⟨ha, hb, by simp, rfl⟩
  | cons c m ih =>
    obtain ⟨h1, h2, h3, h4⟩ := (Memory.wf_cons c m).mp h
    have hc : c.1 ≠ a := hd c (by simp)
    simp only [Memory.place]
    split
    · rename_i hlt
      refine (Memory.wf_cons _ _).mpr ⟨ha, hb, fun d hm => ?_, h⟩
      rcases List.mem_cons.mp hm with e | e
      · rw [e]; exact hlt
      · exact Nat.lt_trans hlt (h3 d e)
    · refine (Memory.wf_cons _ _).mpr ⟨h1, h2, fun d hm => ?_, ih (fun d hm => hd d (by simp [hm])) h4⟩
      rcases Memory.mem_place _ _ _ _ hm with e | e
      · rw [e]; show c.1 < a; omega
      · exact h3 d e

/-- A write keeps the canonical form. -/
theorem Memory.wf_write (m : Memory) (a : Nat) (b : Byte) (ha : a < 4096) (h : Memory.wf m = true) :
    Memory.wf (Memory.write m a b) = true := by
  unfold Memory.write Memory.unlisted
  split
  · exact Memory.wf_drop m a h
  · rename_i hb
    refine Memory.wf_place _ a b ha hb (fun d hd => ?_) (Memory.wf_drop m a h)
    simpa using (List.mem_filter.mp hd).2

/-- A run of writes inside memory keeps the canonical form. -/
theorem Memory.wf_writeBytes (bs : List Byte) (m : Memory) (a : Nat) (ha : a + bs.length ≤ 4096)
    (h : Memory.wf m = true) : Memory.wf (Memory.writeBytes m a bs) = true := by
  induction bs generalizing m a with
  | nil => exact h
  | cons b bs ih =>
    simp only [List.length_cons] at ha
    exact ih _ _ (by omega) (Memory.wf_write m a b (by omega) h)

/-- Reset's memory has the canonical form. -/
theorem reset_mem_wf : Memory.wf State.reset.mem = true := rfl

/-- The canonical form is one: two memories in it that read the same everywhere are equal data. -/
theorem Memory.read_below (m : Memory) (a : Nat) (h : ∀ d ∈ m, a < d.1) : Memory.read m a = 0#8 := by
  induction m with
  | nil => rfl
  | cons c m ih =>
    have hc := h c (by simp)
    rw [Memory.read_cons, if_neg (by omega)]
    exact ih fun d hd => h d (by simp [hd])

theorem Memory.ext_of_wf (m m' : Memory) (h : Memory.wf m = true) (h' : Memory.wf m' = true)
    (e : ∀ a, Memory.read m a = Memory.read m' a) : m = m' := by
  induction m generalizing m' with
  | nil =>
    cases m' with
    | nil => rfl
    | cons c m' =>
      have := e c.1
      rw [Memory.read_cons, if_pos rfl] at this
      exact absurd this.symm ((Memory.wf_cons _ _).mp h').2.1
  | cons c m ih =>
    obtain ⟨_, c2, c3, c4⟩ := (Memory.wf_cons c m).mp h
    cases m' with
    | nil =>
      have := e c.1
      rw [Memory.read_cons, if_pos rfl] at this
      exact absurd this c2
    | cons d m' =>
      obtain ⟨_, d2, d3, d4⟩ := (Memory.wf_cons d m').mp h'
      have hc := e c.1
      have hd := e d.1
      rw [Memory.read_cons, if_pos rfl, Memory.read_cons] at hc
      rw [Memory.read_cons, Memory.read_cons, if_pos rfl] at hd
      have key : c.1 = d.1 := by
        rcases Nat.lt_trichotomy c.1 d.1 with hlt | heq | hgt
        · rw [if_neg (by omega), Memory.read_below m' c.1 fun x hx => Nat.lt_trans hlt (d3 x hx)] at hc
          exact absurd hc c2
        · exact heq
        · rw [if_neg (by omega), Memory.read_below m d.1 fun x hx => Nat.lt_trans hgt (c3 x hx)] at hd
          exact absurd hd.symm d2
      rw [if_pos key.symm] at hc
      have hcd : c = d := Prod.ext key hc
      subst hcd
      congr 1
      refine ih m' c4 d4 fun a => ?_
      by_cases ha : c.1 = a
      · rw [Memory.read_below m a fun x hx => ha ▸ c3 x hx, Memory.read_below m' a fun x hx => ha ▸ d3 x hx]
      · have := e a
        rwa [Memory.read_cons, Memory.read_cons, if_neg ha, if_neg ha] at this

/-! ### The checked accesses -/

theorem inMemory_iff (a n : Nat) : inMemory a n = true ↔ n = 0 ∨ a + n ≤ 4096 := by
  simp only [inMemory, decide_eq_true_eq]
  rfl

theorem State.memRead_ok (s : State) (a n : Nat) (h : n = 0 ∨ a + n ≤ 4096) :
    s.memRead a n = .ok (Memory.readBytes s.mem a n) := if_pos ((inMemory_iff a n).mpr h)

theorem State.memRead_outside (s : State) (a n : Nat) (h0 : n ≠ 0) (h : 4096 < a + n) :
    s.memRead a n = .error (.raised (.outOfBounds (max a 4096))) :=
  if_neg fun e => by rcases (inMemory_iff a n).mp e with e | e <;> omega

theorem State.memWrite_ok (s : State) (a : Nat) (bs : List Byte) (h : a + bs.length ≤ 4096) :
    s.memWrite a bs = .ok { s with mem := Memory.writeBytes s.mem a bs } := if_pos ((inMemory_iff a _).mpr (.inr h))

theorem State.memWrite_outside (s : State) (a : Nat) (bs : List Byte) (h0 : bs ≠ []) (h : 4096 < a + bs.length) :
    s.memWrite a bs = .error (.raised (.outOfBounds (max a 4096))) :=
  if_neg fun e => by
    have := List.length_pos_of_ne_nil h0
    rcases (inMemory_iff a _).mp e with e | e <;> omega

/-- Everything a checked write can answer. -/
theorem State.memWrite_cases (s : State) (a : Nat) (bs : List Byte) :
    (inMemory a bs.length = true ∧ s.memWrite a bs = .ok { s with mem := Memory.writeBytes s.mem a bs }) ∨
    (inMemory a bs.length = false ∧ s.memWrite a bs = .error (.raised (.outOfBounds (max a 4096)))) := by
  unfold State.memWrite
  cases h : inMemory a bs.length <;> simp [firstOutside, Config.memSize]

/-- Everything a checked read can answer. -/
theorem State.memRead_cases (s : State) (a n : Nat) :
    (inMemory a n = true ∧ s.memRead a n = .ok (Memory.readBytes s.mem a n)) ∨
    (inMemory a n = false ∧ s.memRead a n = .error (.raised (.outOfBounds (max a 4096)))) := by
  unfold State.memRead
  cases h : inMemory a n <;> simp [firstOutside, Config.memSize]

/-! ## Stack -/

theorem State.push_ok (s : State) (a : Word) (h : s.sp.toNat < 16) :
    s.push a = .ok { s with stack := s.stack.set s.sp.toNat a h, sp := s.sp + 1#8 } := dif_pos h

theorem State.push_full (s : State) (a : Word) (h : s.sp.toNat = 16) : s.push a = .error (.raised .stackFull) := by
  simp [State.push, h]

theorem State.pop_ok (s : State) (h0 : s.sp.toNat ≠ 0) (h : s.sp.toNat - 1 < 16) :
    s.pop = .ok (s.stack[s.sp.toNat - 1], { s with sp := s.sp - 1#8 }) := by
  simp [State.pop, h0, h]

theorem State.pop_empty (s : State) (h : s.sp.toNat = 0) : s.pop = .error (.raised .stackEmpty) := by
  simp [State.pop, h]

/-! ## Ending an instruction -/

/-- An abort answers a next state only by taking a fault, and then the record is all that changes (R250). -/
theorem Abort.enter_next (e : Abort) (s t : State) (h : e.enter s = .next t) :
    ∃ k, e = .raised k ∧ t = { s with fault := some k } := by
  cases e with
  | raised k =>
    simp only [Abort.enter, State.raise, Host.Outcome.next.injEq] at h
    exact ⟨k, rfl, h.symm⟩
  | stuck f => simp [Abort.enter] at h

@[simp] theorem Abort.enter_raised (k : FaultKind) (s : State) :
    (Abort.raised k).enter s = .next { s with fault := some k } := rfl

/-! ## Framebuffer -/

theorem setBit_getLsbD (row : BitVec 64) (k j : Nat) (b : Bool) (hk : k < 64) :
    (setBit row k b).getLsbD j = if j = k then b else row.getLsbD j := by
  unfold setBit
  cases b
  · simp only [Bool.false_eq_true, if_false, BitVec.getLsbD_and, BitVec.getLsbD_not, BitVec.getLsbD_shiftLeft,
      BitVec.getLsbD_one]
    by_cases hj : j < 64
    · by_cases e : j = k
      · simp [e, hk]
      · by_cases hlt : j < k
        · simp [e, hj, hlt]
        · have : j - k ≠ 0 := by omega
          simp [e, hj, hlt, this]
    · have : row.getLsbD j = false := BitVec.getLsbD_of_ge _ _ (by omega)
      simp [this]
  · simp only [if_true, BitVec.getLsbD_or, BitVec.getLsbD_shiftLeft, BitVec.getLsbD_one]
    by_cases e : j = k
    · simp [e, hk]
    · by_cases hlt : j < k
      · simp [e, hlt]
      · have : j - k ≠ 0 := by omega
        simp [e, this]

/-- A pixel read after a pixel write (R35: "a read returns the last value written"). -/
theorem Framebuffer.pixel_write (fb : Framebuffer) (px qx : Fin 64) (py qy : Fin 32) (b : Bool) :
    Framebuffer.pixel (Framebuffer.write fb px py b) qx qy =
      if qx = px ∧ qy = py then b else Framebuffer.pixel fb qx qy := by
  simp only [Framebuffer.pixel, Framebuffer.write, Vector.getElem_set]
  by_cases hy : py.val = qy.val
  · have : qy = py := Fin.ext hy.symm
    subst this
    rw [if_pos rfl, setBit_getLsbD _ _ _ _ px.isLt]
    simp [Fin.ext_iff]
  · have : ¬ qy = py := fun e => hy (by rw [e])
    simp [hy, this]

@[simp] theorem Framebuffer.pixel_clear (px : Fin 64) (py : Fin 32) :
    Framebuffer.pixel Framebuffer.clear px py = false := by
  simp [Framebuffer.pixel, Framebuffer.clear]

/-- Framebuffers with the same pixels are equal data. -/
theorem Framebuffer.ext_pixel (fb fb' : Framebuffer)
    (h : ∀ px py, Framebuffer.pixel fb px py = Framebuffer.pixel fb' px py) : fb = fb' := by
  apply Vector.ext
  intro i hi
  apply BitVec.eq_of_getLsbD_eq
  intro j hj
  exact h ⟨j, hj⟩ ⟨i, hi⟩

/-! ## Timers -/

theorem countDown_toNat (t : Byte) : (countDown t).toNat = t.toNat - 1 := by
  have := t.isLt
  unfold countDown
  split
  · rw [BitVec.toNat_sub]; simp; omega
  · omega

theorem countDownBy_toNat (n : Nat) (t : Byte) : (countDownBy n t).toNat = t.toNat - n := by
  have := t.isLt
  simp only [countDownBy, BitVec.toNat_ofNat]
  exact Nat.mod_eq_of_lt (by omega)

/-! ## The cycle -/

/-- When a CPU step exists (R120). -/
theorem State.noStep_eq_none (s : State) :
    s.noStep = none ↔ s.run = .running ∧ s.fault = none ∧ s.pc.toNat ≤ 4094 := by
  unfold State.noStep State.hasMore
  cases hr : s.run <;> by_cases hf : s.fault = none <;> by_cases hp : s.pc.toNat ≤ 4094 <;> simp [hf, hp]

theorem State.noStep_none (s : State) (hr : s.run = .running) (hf : s.fault = none) (hp : s.pc.toNat ≤ 4094) :
    s.noStep = none := s.noStep_eq_none.mpr ⟨hr, hf, hp⟩

/-- Everything a step that answers a next state can be: the state has a step, and the step is the meaning of the instruction
at `pc` or the fault of an illegal word. -/
theorem step_next (s t : State) (h : step s = .next t) :
    (s.run = .running ∧ s.fault = none ∧ s.pc.toNat ≤ 4094) ∧
    ((∃ i rest, decode s.fetchBytes = .ok (i, rest) ∧ exec i s.beginStep = .next t) ∨
     (∃ w, decode s.fetchBytes = .error (.illegalInstruction w) ∧
       t = { s.beginStep with fault := some (.illegalInstruction w) })) := by
  unfold step at h
  split at h
  · simp at h
  · rename_i hn
    refine ⟨s.noStep_eq_none.mp hn, ?_⟩
    · split at h
      · rename_i i rest hd
        exact .inl ⟨i, rest, hd, h⟩
      · rename_i e hd
        cases e with
        | illegalInstruction w =>
          simp only [rejectFetch, State.raise, Host.Outcome.next.injEq] at h
          exact .inr ⟨w, hd, h.symm⟩
        | truncated bs => simp [rejectFetch] at h

end Sys2Proof.Machine
end

