-- ==== Sys2Proof/Laws/Exec.lean ====
section
/-! SUPPORT. Inversion: all that a meaning with more than one way to end can answer. A meaning not listed here is one equation
`.next t`, true by rfl. -/

namespace Sys2Proof.Machine

/-- Everything a `RET` that answers a next state can be. -/
theorem execRet_next (s t : State) (h : execRet s = .next t) :
    (s.sp.toNat = 0 ∧ t = { s with fault := some .stackEmpty }) ∨
    (∃ hs : s.sp.toNat - 1 < 16, s.sp.toNat ≠ 0 ∧ t = { s with sp := s.sp - 1#8, pc := s.stack[s.sp.toNat - 1] }) := by
  unfold execRet at h
  by_cases h0 : s.sp.toNat = 0
  · rw [State.pop_empty s h0] at h
    simp only [Abort.enter_raised, Host.Outcome.next.injEq] at h
    exact .inl ⟨h0, h.symm⟩
  · by_cases h1 : s.sp.toNat - 1 < 16
    · rw [State.pop_ok s h0 h1] at h
      simp only [Host.Outcome.next.injEq] at h
      exact .inr ⟨h1, h0, h.symm⟩
    · simp [State.pop, h0, h1, Abort.enter] at h

/-- Everything a `CALL` that answers a next state can be. -/
theorem execCall_next (nnn : Addr) (s t : State) (h : execCall nnn s = .next t) :
    (s.sp.toNat = 16 ∧ t = { s with fault := some .stackFull }) ∨
    (∃ hs : s.sp.toNat < 16, t = { s with
      stack := s.stack.set s.sp.toNat (s.pc + 2#16) hs, sp := s.sp + 1#8, pc := addrOperand nnn }) := by
  unfold execCall at h
  by_cases h0 : s.sp.toNat < 16
  · rw [State.push_ok s _ h0] at h
    simp only [Host.Outcome.next.injEq] at h
    exact .inr ⟨h0, h.symm⟩
  · by_cases h1 : s.sp.toNat = 16
    · rw [State.push_full s _ h1] at h
      simp only [Abort.enter_raised, Host.Outcome.next.injEq] at h
      exact .inl ⟨h1, h.symm⟩
    · simp [State.push, h0, h1, Abort.enter] at h

/-- Everything a `DRW` can be. -/
theorem execDrw_cases (x y : RegIdx) (n : Nat) (s : State) :
    (inMemory s.address n = false ∧
      execDrw x y n s = .next { s with fault := some (.outOfBounds (max s.address 4096)) }) ∨
    (inMemory s.address n = true ∧
      ∃ d, d = drawRows (s.reg x).toNat (s.reg y).toNat (Memory.readBytes s.mem s.address n) 0 (s.fb, false) ∧
        execDrw x y n s = .next ({ s with fb := d.1 }.setFlag d.2).advance) := by
  unfold execDrw
  rcases s.memRead_cases s.address n with ⟨h, e⟩ | ⟨h, e⟩
  · rw [e]; exact .inr ⟨h, _, rfl, rfl⟩
  · rw [e]; exact .inl ⟨h, rfl⟩

/-- Everything a `LD B` can be. -/
theorem execLdB_cases (x : RegIdx) (s : State) :
    (inMemory s.address 3 = false ∧
      execLdB x s = .next { s with fault := some (.outOfBounds (max s.address 4096)) }) ∨
    (inMemory s.address 3 = true ∧
      execLdB x s = .next { s with mem := Memory.writeBytes s.mem s.address (bcdDigits (s.reg x)) }.advance) := by
  unfold execLdB
  rcases s.memWrite_cases s.address (bcdDigits (s.reg x)) with ⟨h, e⟩ | ⟨h, e⟩
  · rw [e]; exact .inr ⟨h, rfl⟩
  · rw [e]; exact .inl ⟨h, rfl⟩

/-- Everything a `LD [I],Vx` can be. -/
theorem execLdMemRegs_cases (x : RegIdx) (s : State) :
    (inMemory s.address (x.toNat + 1) = false ∧
      execLdMemRegs x s = .next { s with fault := some (.outOfBounds (max s.address 4096)) }) ∨
    (inMemory s.address (x.toNat + 1) = true ∧
      execLdMemRegs x s = .next { s with mem := Memory.writeBytes s.mem s.address (s.regsUpTo x) }.advance) := by
  unfold execLdMemRegs
  rcases s.memWrite_cases s.address (s.regsUpTo x) with ⟨h, e⟩ | ⟨h, e⟩ <;> rw [State.regsUpTo_length] at h
  · rw [e]; exact .inr ⟨h, rfl⟩
  · rw [e]; exact .inl ⟨h, rfl⟩

/-- Everything a `LD Vx,[I]` can be. -/
theorem execLdRegsMem_cases (x : RegIdx) (s : State) :
    (inMemory s.address (x.toNat + 1) = false ∧
      execLdRegsMem x s = .next { s with fault := some (.outOfBounds (max s.address 4096)) }) ∨
    (inMemory s.address (x.toNat + 1) = true ∧
      execLdRegsMem x s =
        .next { s with v := loadRegs s.v 0 (Memory.readBytes s.mem s.address (x.toNat + 1)) }.advance) := by
  unfold execLdRegsMem
  rcases s.memRead_cases s.address (x.toNat + 1) with ⟨h, e⟩ | ⟨h, e⟩
  · rw [e]; exact .inr ⟨h, rfl⟩
  · rw [e]; exact .inl ⟨h, rfl⟩

/-- Everything a `SKP` can be. -/
theorem execSkp_cases (x : RegIdx) (s : State) :
    ((s.reg x).toNat > 15 ∧ execSkp x s = .next { s with fault := some (.outOfBounds (s.reg x).toNat) }) ∨
    ((s.reg x).toNat ≤ 15 ∧ execSkp x s = .next (s.skipIf (s.keyDown ((s.reg x).setWidth 4)))) := by
  unfold execSkp State.keyOperand Config.numKeys
  by_cases h : (s.reg x).toNat < 16
  · rw [if_pos h]; exact .inr ⟨by omega, rfl⟩
  · rw [if_neg h]; exact .inl ⟨by omega, rfl⟩

/-- Everything a `SKNP` can be. -/
theorem execSknp_cases (x : RegIdx) (s : State) :
    ((s.reg x).toNat > 15 ∧ execSknp x s = .next { s with fault := some (.outOfBounds (s.reg x).toNat) }) ∨
    ((s.reg x).toNat ≤ 15 ∧ execSknp x s = .next (s.skipIf (!s.keyDown ((s.reg x).setWidth 4)))) := by
  unfold execSknp State.keyOperand Config.numKeys
  by_cases h : (s.reg x).toNat < 16
  · rw [if_pos h]; exact .inr ⟨by omega, rfl⟩
  · rw [if_neg h]; exact .inl ⟨by omega, rfl⟩

/-- Everything a key wait can be. -/
theorem execLdVxK_cases (x : RegIdx) (s : State) :
    (s.keyEvent = none ∧ execLdVxK x s = .next s) ∨
    (∃ k, s.keyEvent = some k ∧ execLdVxK x s = .next (s.setReg x (k.setWidth 8)).advance) := by
  unfold execLdVxK State.afterKeyWait
  cases h : s.keyEvent with
  | none => exact .inl ⟨rfl, rfl⟩
  | some k => exact .inr ⟨k, rfl, rfl⟩

/-! ## One pixel of a sprite (R142) -/

/-- What drawing one sprite pixel does to the pixel `(px, py)`. -/
theorem drawPixel_pixel (x0 y0 r : Nat) (b : Byte) (d : Drawing) (col : Nat) (px : Fin 64) (py : Fin 32) :
    Framebuffer.pixel (drawPixel x0 y0 r b d col).1 px py =
      if b.getLsbD (7 - col) = true ∧ px.val = (x0 + col) % 64 ∧ py.val = (y0 + r) % 32
      then !Framebuffer.pixel d.1 px py else Framebuffer.pixel d.1 px py := by
  unfold drawPixel
  cases hb : b.getLsbD (7 - col)
  · simp
  · simp only [if_true, Framebuffer.pixel_write, Fin.ext_iff, true_and]
    split
    · rename_i h
      rw [show px = ⟨(x0 + col) % 64, Nat.mod_lt _ (by decide)⟩ from Fin.ext h.1,
        show py = ⟨(y0 + r) % 32, Nat.mod_lt _ (by decide)⟩ from Fin.ext h.2]
    · rfl

/-- The collision after one sprite pixel: it stands, or the pixel was on under an on bit. -/
theorem drawPixel_collision (x0 y0 r : Nat) (b : Byte) (d : Drawing) (col : Nat) :
    (drawPixel x0 y0 r b d col).2 =
      (d.2 || (b.getLsbD (7 - col) && Framebuffer.pixel d.1 ⟨(x0 + col) % 64, Nat.mod_lt _ (by decide)⟩
        ⟨(y0 + r) % 32, Nat.mod_lt _ (by decide)⟩)) := by
  unfold drawPixel
  cases hb : b.getLsbD (7 - col) <;> simp

end Sys2Proof.Machine
end

