-- ==== Sys2Proof/Laws/PerInstr.lean ====
section
/-! SUPPORT. Per instruction: the word of an instruction has the fixed bits of its row of the opcode map (R98). -/

namespace Sys2Proof

/-! ## The fixed bits of a word laid out as the formats of R93 -/

/-- Masking two fields side by side masks each. -/
theorem append_and_append {m n : Nat} (a c : BitVec m) (b d : BitVec n) :
    (a ++ b) &&& (c ++ d) = (a &&& c) ++ (b &&& d) := by
  apply BitVec.eq_of_getLsbD_eq
  intro j _
  simp only [BitVec.getLsbD_and, BitVec.getLsbD_append]
  by_cases h : j < n <;> simp [h]

theorem and_ones4 (a : BitVec 4) : a &&& 0xF#4 = a := BitVec.and_allOnes

theorem and_ones8 (a : BitVec 8) : a &&& 0xFF#8 = a := BitVec.and_allOnes

theorem mask_nnn (o : BitVec 4) (nnn : Addr) : (o ++ nnn) &&& 0xF000#16 = o ++ 0#12 := by
  rw [show 0xF000#16 = 0xF#4 ++ 0#12 from rfl, append_and_append]
  simp [and_ones4]

theorem mask_xnn (o x : BitVec 4) (nn : Byte) : (o ++ x ++ nn) &&& 0xF000#16 = o ++ 0#4 ++ 0#8 := by
  rw [show 0xF000#16 = 0xF#4 ++ 0#4 ++ 0#8 from rfl, append_and_append, append_and_append]
  simp [and_ones4]

theorem mask_x (o x : BitVec 4) (nn : Byte) : (o ++ x ++ nn) &&& 0xF0FF#16 = o ++ 0#4 ++ nn := by
  rw [show 0xF0FF#16 = 0xF#4 ++ 0#4 ++ 0xFF#8 from rfl, append_and_append, append_and_append]
  simp [and_ones4, and_ones8]

theorem mask_xy (o x y n : BitVec 4) : (o ++ x ++ y ++ n) &&& 0xF00F#16 = o ++ 0#4 ++ 0#4 ++ n := by
  rw [show 0xF00F#16 = 0xF#4 ++ 0#4 ++ 0#4 ++ 0xF#4 from rfl, append_and_append, append_and_append,
    append_and_append]
  simp [and_ones4]

theorem mask_xyn (o x y n : BitVec 4) : (o ++ x ++ y ++ n) &&& 0xF000#16 = o ++ 0#4 ++ 0#4 ++ 0#4 := by
  rw [show 0xF000#16 = 0xF#4 ++ 0#4 ++ 0#4 ++ 0#4 from rfl, append_and_append, append_and_append,
    append_and_append]
  simp [and_ones4]

/-- The word of an instruction matches the row of R98 the instruction belongs to. -/
def Laws.EncodesRow.Statement (i : Instr) : Prop :=
  ∃ row, opcodeMap[rowOf i]? = some row ∧ matchesRow (encode i) row

theorem Laws.EncodesRow.cls : Laws.EncodesRow.Statement .cls :=
  ⟨_, rfl, rfl⟩

theorem Laws.EncodesRow.ret : Laws.EncodesRow.Statement .ret :=
  ⟨_, rfl, rfl⟩

theorem Laws.EncodesRow.jp (nnn : Addr) : Laws.EncodesRow.Statement (.jp nnn) :=
  ⟨_, rfl, mask_nnn _ _⟩

theorem Laws.EncodesRow.call (nnn : Addr) : Laws.EncodesRow.Statement (.call nnn) :=
  ⟨_, rfl, mask_nnn _ _⟩

theorem Laws.EncodesRow.seImm (x : RegIdx) (nn : Byte) : Laws.EncodesRow.Statement (.seImm x nn) :=
  ⟨_, rfl, mask_xnn _ _ _⟩

theorem Laws.EncodesRow.sneImm (x : RegIdx) (nn : Byte) : Laws.EncodesRow.Statement (.sneImm x nn) :=
  ⟨_, rfl, mask_xnn _ _ _⟩

theorem Laws.EncodesRow.seReg (x y : RegIdx) : Laws.EncodesRow.Statement (.seReg x y) :=
  ⟨_, rfl, mask_xy _ _ _ _⟩

theorem Laws.EncodesRow.ldImm (x : RegIdx) (nn : Byte) : Laws.EncodesRow.Statement (.ldImm x nn) :=
  ⟨_, rfl, mask_xnn _ _ _⟩

theorem Laws.EncodesRow.addImm (x : RegIdx) (nn : Byte) : Laws.EncodesRow.Statement (.addImm x nn) :=
  ⟨_, rfl, mask_xnn _ _ _⟩

theorem Laws.EncodesRow.ldReg (x y : RegIdx) : Laws.EncodesRow.Statement (.ldReg x y) :=
  ⟨_, rfl, mask_xy _ _ _ _⟩

theorem Laws.EncodesRow.orReg (x y : RegIdx) : Laws.EncodesRow.Statement (.orReg x y) :=
  ⟨_, rfl, mask_xy _ _ _ _⟩

theorem Laws.EncodesRow.andReg (x y : RegIdx) : Laws.EncodesRow.Statement (.andReg x y) :=
  ⟨_, rfl, mask_xy _ _ _ _⟩

theorem Laws.EncodesRow.xorReg (x y : RegIdx) : Laws.EncodesRow.Statement (.xorReg x y) :=
  ⟨_, rfl, mask_xy _ _ _ _⟩

theorem Laws.EncodesRow.addReg (x y : RegIdx) : Laws.EncodesRow.Statement (.addReg x y) :=
  ⟨_, rfl, mask_xy _ _ _ _⟩

theorem Laws.EncodesRow.subReg (x y : RegIdx) : Laws.EncodesRow.Statement (.subReg x y) :=
  ⟨_, rfl, mask_xy _ _ _ _⟩

theorem Laws.EncodesRow.shr (x y : RegIdx) : Laws.EncodesRow.Statement (.shr x y) :=
  ⟨_, rfl, mask_xy _ _ _ _⟩

theorem Laws.EncodesRow.subnReg (x y : RegIdx) : Laws.EncodesRow.Statement (.subnReg x y) :=
  ⟨_, rfl, mask_xy _ _ _ _⟩

theorem Laws.EncodesRow.shl (x y : RegIdx) : Laws.EncodesRow.Statement (.shl x y) :=
  ⟨_, rfl, mask_xy _ _ _ _⟩

theorem Laws.EncodesRow.sneReg (x y : RegIdx) : Laws.EncodesRow.Statement (.sneReg x y) :=
  ⟨_, rfl, mask_xy _ _ _ _⟩

theorem Laws.EncodesRow.ldI (nnn : Addr) : Laws.EncodesRow.Statement (.ldI nnn) :=
  ⟨_, rfl, mask_nnn _ _⟩

theorem Laws.EncodesRow.jpV0 (nnn : Addr) : Laws.EncodesRow.Statement (.jpV0 nnn) :=
  ⟨_, rfl, mask_nnn _ _⟩

theorem Laws.EncodesRow.rnd (x : RegIdx) (nn : Byte) : Laws.EncodesRow.Statement (.rnd x nn) :=
  ⟨_, rfl, mask_xnn _ _ _⟩

theorem Laws.EncodesRow.drw (x y : RegIdx) (n : Nat) : Laws.EncodesRow.Statement (.drw x y n) :=
  ⟨_, rfl, mask_xyn _ _ _ _⟩

theorem Laws.EncodesRow.skp (x : RegIdx) : Laws.EncodesRow.Statement (.skp x) :=
  ⟨_, rfl, mask_x _ _ _⟩

theorem Laws.EncodesRow.sknp (x : RegIdx) : Laws.EncodesRow.Statement (.sknp x) :=
  ⟨_, rfl, mask_x _ _ _⟩

theorem Laws.EncodesRow.ldVxDt (x : RegIdx) : Laws.EncodesRow.Statement (.ldVxDt x) :=
  ⟨_, rfl, mask_x _ _ _⟩

theorem Laws.EncodesRow.ldVxK (x : RegIdx) : Laws.EncodesRow.Statement (.ldVxK x) :=
  ⟨_, rfl, mask_x _ _ _⟩

theorem Laws.EncodesRow.ldDtVx (x : RegIdx) : Laws.EncodesRow.Statement (.ldDtVx x) :=
  ⟨_, rfl, mask_x _ _ _⟩

theorem Laws.EncodesRow.ldStVx (x : RegIdx) : Laws.EncodesRow.Statement (.ldStVx x) :=
  ⟨_, rfl, mask_x _ _ _⟩

theorem Laws.EncodesRow.addI (x : RegIdx) : Laws.EncodesRow.Statement (.addI x) :=
  ⟨_, rfl, mask_x _ _ _⟩

theorem Laws.EncodesRow.ldF (x : RegIdx) : Laws.EncodesRow.Statement (.ldF x) :=
  ⟨_, rfl, mask_x _ _ _⟩

theorem Laws.EncodesRow.ldB (x : RegIdx) : Laws.EncodesRow.Statement (.ldB x) :=
  ⟨_, rfl, mask_x _ _ _⟩

theorem Laws.EncodesRow.ldMemRegs (x : RegIdx) : Laws.EncodesRow.Statement (.ldMemRegs x) :=
  ⟨_, rfl, mask_x _ _ _⟩

theorem Laws.EncodesRow.ldRegsMem (x : RegIdx) : Laws.EncodesRow.Statement (.ldRegsMem x) :=
  ⟨_, rfl, mask_x _ _ _⟩

end Sys2Proof
end

