-- ==== Sys2Proof/Tests/Slice0.lean ====
section
/-! SUPPORT. Tests. Expected results are those of `spec/95_test_vectors.md` sections 2 and 3 and of the examples in the instruction
rules, not the model's own answers. The witnesses at the end show that the hypotheses of the statements can be met. -/

namespace Sys2Proof.Tests

open Sys2Proof Sys2Proof.Machine

/-- A loaded machine at `pc = 0x200`, everything else as after reset (95, conventions of sections 2 and 3). -/
def start : State := { State.reset with run := .running, pc := 0x200#16 }

/-- A field of the state an answer gives. -/
def after {α : Type} (a : Answer) (f : State → α) : Option α :=
  match a with
  | .next t => some (f t)
  | _ => none

/-- `start` with two registers set. -/
def regs2 (x : RegIdx) (a : Byte) (y : RegIdx) (b : Byte) : State := (start.setReg x a).setReg y b

/-- `start` with bytes from an address up, and `I` at the address. -/
def atI (a : Nat) (bs : List Byte) : State :=
  { start with mem := Memory.writeBytes start.mem a bs, iReg := BitVec.ofNat 16 a }

/-- The pixels that are on, row by row. -/
def onPixels (s : State) : List (Nat × Nat) :=
  ((List.range 32).map fun r =>
    (List.range 64).filterMap fun c => if (s.fb.toList.getD r 0#64).getLsbD c then some (c, r) else none).flatten

/-! ## WellFormed: its one check -/

theorem test_wellFormed_refuses_sixteen_rows : WellFormed (.drw 1#4 2#4 16) = false := by decide
theorem test_wellFormed_accepts_fifteen_rows : WellFormed (.drw 1#4 2#4 15) = true := by decide

/-! ## Decoding: a word of every row of R98, written out from its pattern -/

theorem test_decode_cls : decodeWord 0x00E0#16 = some (.cls) := by decide
theorem test_decode_ret : decodeWord 0x00EE#16 = some (.ret) := by decide
theorem test_decode_jp : decodeWord 0x1ABC#16 = some (.jp 0xABC#12) := by decide
theorem test_decode_call : decodeWord 0x2ABC#16 = some (.call 0xABC#12) := by decide
theorem test_decode_seImm : decodeWord 0x332A#16 = some (.seImm 3#4 0x2A#8) := by decide
theorem test_decode_sneImm : decodeWord 0x432B#16 = some (.sneImm 3#4 0x2B#8) := by decide
theorem test_decode_seReg : decodeWord 0x5120#16 = some (.seReg 1#4 2#4) := by decide
theorem test_decode_ldImm : decodeWord 0x6A7F#16 = some (.ldImm 10#4 0x7F#8) := by decide
theorem test_decode_addImm : decodeWord 0x7120#16 = some (.addImm 1#4 0x20#8) := by decide
theorem test_decode_ldReg : decodeWord 0x8120#16 = some (.ldReg 1#4 2#4) := by decide
theorem test_decode_orReg : decodeWord 0x8121#16 = some (.orReg 1#4 2#4) := by decide
theorem test_decode_andReg : decodeWord 0x8122#16 = some (.andReg 1#4 2#4) := by decide
theorem test_decode_xorReg : decodeWord 0x8123#16 = some (.xorReg 1#4 2#4) := by decide
theorem test_decode_addReg : decodeWord 0x8F14#16 = some (.addReg 15#4 1#4) := by decide
theorem test_decode_subReg : decodeWord 0x8125#16 = some (.subReg 1#4 2#4) := by decide
theorem test_decode_shr : decodeWord 0x8FF6#16 = some (.shr 15#4 15#4) := by decide
theorem test_decode_subnReg : decodeWord 0x8127#16 = some (.subnReg 1#4 2#4) := by decide
theorem test_decode_shl : decodeWord 0x812E#16 = some (.shl 1#4 2#4) := by decide
theorem test_decode_sneReg : decodeWord 0x9AB0#16 = some (.sneReg 10#4 11#4) := by decide
theorem test_decode_ldI : decodeWord 0xA2F0#16 = some (.ldI 0x2F0#12) := by decide
theorem test_decode_jpV0 : decodeWord 0xBFFF#16 = some (.jpV0 0xFFF#12) := by decide
theorem test_decode_rnd : decodeWord 0xC30F#16 = some (.rnd 3#4 0x0F#8) := by decide
theorem test_decode_drw : decodeWord 0xD12F#16 = some (.drw 1#4 2#4 15) := by decide
theorem test_decode_skp : decodeWord 0xE19E#16 = some (.skp 1#4) := by decide
theorem test_decode_sknp : decodeWord 0xE1A1#16 = some (.sknp 1#4) := by decide
theorem test_decode_ldVxDt : decodeWord 0xF307#16 = some (.ldVxDt 3#4) := by decide
theorem test_decode_ldVxK : decodeWord 0xFF0A#16 = some (.ldVxK 15#4) := by decide
theorem test_decode_ldDtVx : decodeWord 0xF315#16 = some (.ldDtVx 3#4) := by decide
theorem test_decode_ldStVx : decodeWord 0xF318#16 = some (.ldStVx 3#4) := by decide
theorem test_decode_addI : decodeWord 0xF21E#16 = some (.addI 2#4) := by decide
theorem test_decode_ldF : decodeWord 0xF429#16 = some (.ldF 4#4) := by decide
theorem test_decode_ldB : decodeWord 0xF033#16 = some (.ldB 0#4) := by decide
theorem test_decode_ldMemRegs : decodeWord 0xF155#16 = some (.ldMemRegs 1#4) := by decide
theorem test_decode_ldRegsMem : decodeWord 0xF265#16 = some (.ldRegsMem 2#4) := by decide

/-! ## Illegal words (95, 2.1) -/

theorem test_illegal_group0 : [0x0000#16, 0x00E1#16, 0x00EF#16, 0x0123#16, 0x0FFF#16].map decodeWord = List.replicate 5 none := by
  decide
theorem test_illegal_low_nibble :
    [0x5121#16, 0x512F#16, 0x9AB1#16, 0x8128#16, 0x812D#16, 0x812F#16].map decodeWord = List.replicate 6 none := by decide
theorem test_illegal_low_byte :
    [0xE19F#16, 0xE100#16, 0xE1A0#16, 0xF000#16, 0xF066#16, 0xF075#16, 0xF1FF#16].map decodeWord = List.replicate 7 none := by
  decide
theorem test_decode_truncated : decode [0x12#8] = .error (.truncated [0x12#8]) := by rfl
theorem test_decode_rest : decode [0x12#8, 0x00#8, 0xFF#8] = .ok (.jp 0x200#12, [0xFF#8]) := by rfl
theorem test_decodeTableWord : decodeTableWord 16 0xD125 = some (.drw 1#4 2#4 5) := by decide

/-! ## Meanings (95, 2.3 to 2.9) -/

theorem test_cls_clears :
    after (exec .cls { start with fb := Framebuffer.write start.fb 3 4 true }) (fun t => (onPixels t, t.pc)) = some ([], 0x202#16) := by decide
theorem test_ret_pops :
    after (exec .ret { start with sp := 1#8, stack := start.stack.set 0 0x0202#16 }) (fun t => (t.pc, t.sp, t.stack[0])) =
      some (0x202#16, 0#8, 0x202#16) := by decide
theorem test_ret_empty :
    after (exec .ret start) (fun t => (t.fault, t.pc, t.sp)) = some (some .stackEmpty, 0x200#16, 0#8) := by decide
theorem test_jp :
    after (exec (.jp 0xABC#12) start) State.pc = some 0xABC#16 := by decide
theorem test_call_last_slot :
    after (exec (.call 0x400#12) { start with sp := 15#8, pc := 0x300#16 }) (fun t => (t.stack[15], t.sp, t.pc)) =
      some (0x302#16, 16#8, 0x400#16) := by decide
theorem test_call_full :
    after (exec (.call 0x400#12) { start with sp := 16#8, pc := 0x300#16 }) (fun t => (t.fault, t.sp, t.pc)) =
      some (some .stackFull, 16#8, 0x300#16) := by decide
theorem test_seImm_skips :
    after (exec (.seImm 3#4 0x2A#8) (start.setReg 3#4 0x2A#8)) State.pc = some 0x204#16 := by decide
theorem test_seImm_falls_through :
    after (exec (.seImm 3#4 0x2B#8) (start.setReg 3#4 0x2A#8)) State.pc = some 0x202#16 := by decide
theorem test_sneImm_skips :
    after (exec (.sneImm 3#4 0x2B#8) (start.setReg 3#4 0x2A#8)) State.pc = some 0x204#16 := by decide
theorem test_sneImm_falls_through :
    after (exec (.sneImm 3#4 0x2A#8) (start.setReg 3#4 0x2A#8)) State.pc = some 0x202#16 := by decide
theorem test_seReg_skips :
    after (exec (.seReg 1#4 2#4) (regs2 1#4 7#8 2#4 7#8)) State.pc = some 0x204#16 := by decide
theorem test_seReg_falls_through :
    after (exec (.seReg 1#4 2#4) (regs2 1#4 7#8 2#4 8#8)) State.pc = some 0x202#16 := by decide
theorem test_sneReg_falls_through :
    after (exec (.sneReg 1#4 2#4) (regs2 1#4 7#8 2#4 7#8)) State.pc = some 0x202#16 := by decide
theorem test_sneReg_skips :
    after (exec (.sneReg 1#4 2#4) (regs2 1#4 7#8 2#4 8#8)) State.pc = some 0x204#16 := by decide
theorem test_jpV0_uses_v0 :
    after (exec (.jpV0 0x300#12) (regs2 0#4 0x10#8 3#4 0x80#8)) State.pc = some 0x310#16 := by decide
theorem test_jpV0_no_wrap :
    after (exec (.jpV0 0xFFF#12) (start.setReg 0#4 0xFF#8)) State.pc = some 0x10FE#16 := by decide
theorem test_ldImm :
    after (exec (.ldImm 10#4 0x7F#8) start) (fun t => (t.reg 10#4, t.pc)) = some (0x7F#8, 0x202#16) := by decide
theorem test_addImm_no_carry_flag :
    after (exec (.addImm 1#4 0x20#8) (regs2 1#4 0xF0#8 VF 5#8)) (fun t => (t.reg 1#4, t.reg VF)) = some (0x10#8, 5#8) := by decide
theorem test_ldReg :
    after (exec (.ldReg 1#4 2#4) (start.setReg 2#4 9#8)) (fun t => t.reg 1#4) = some 9#8 := by decide
theorem test_orReg :
    after (exec (.orReg 1#4 2#4) (regs2 1#4 0xF0#8 2#4 0x0F#8)) (fun t => t.reg 1#4) = some 0xFF#8 := by decide
theorem test_andReg :
    after (exec (.andReg 1#4 2#4) (regs2 1#4 0xF0#8 2#4 0x3C#8)) (fun t => t.reg 1#4) = some 0x30#8 := by decide
theorem test_xorReg :
    after (exec (.xorReg 1#4 2#4) (regs2 1#4 0xF0#8 2#4 0x3C#8)) (fun t => t.reg 1#4) = some 0xCC#8 := by decide
theorem test_addReg_carry :
    after (exec (.addReg 1#4 2#4) (regs2 1#4 0xFF#8 2#4 0x02#8)) (fun t => (t.reg 1#4, t.reg VF)) = some (1#8, 1#8) := by decide
theorem test_addReg_flag_wins_in_vf :
    after (exec (.addReg 15#4 1#4) (regs2 15#4 0x10#8 1#4 0x02#8)) (fun t => t.reg VF) = some 0#8 := by decide
theorem test_subReg_borrow :
    after (exec (.subReg 1#4 2#4) (regs2 1#4 3#8 2#4 5#8)) (fun t => (t.reg 1#4, t.reg VF)) = some (0xFE#8, 0#8) := by decide
theorem test_subReg_equal :
    after (exec (.subReg 1#4 2#4) (regs2 1#4 7#8 2#4 7#8)) (fun t => (t.reg 1#4, t.reg VF)) = some (0#8, 1#8) := by decide
theorem test_shr_ignores_y :
    after (exec (.shr 1#4 2#4) (regs2 1#4 5#8 2#4 0xF0#8)) (fun t => (t.reg 1#4, t.reg VF, t.reg 2#4)) =
      some (2#8, 1#8, 0xF0#8) := by decide
theorem test_shr_flag_wins_in_vf :
    after (exec (.shr 15#4 15#4) (start.setReg VF 2#8)) (fun t => t.reg VF) = some 0#8 := by decide
theorem test_subnReg :
    after (exec (.subnReg 1#4 2#4) (regs2 1#4 3#8 2#4 5#8)) (fun t => (t.reg 1#4, t.reg VF)) = some (2#8, 1#8) := by decide
theorem test_subnReg_borrow :
    after (exec (.subnReg 1#4 2#4) (regs2 1#4 0x20#8 2#4 0x10#8)) (fun t => (t.reg 1#4, t.reg VF)) = some (0xF0#8, 0#8) := by decide
theorem test_shl :
    after (exec (.shl 1#4 2#4) (start.setReg 1#4 0x81#8)) (fun t => (t.reg 1#4, t.reg VF)) = some (2#8, 1#8) := by decide
theorem test_shl_no_carry :
    after (exec (.shl 1#4 0#4) (start.setReg 1#4 0x40#8)) (fun t => (t.reg 1#4, t.reg VF)) = some (0x80#8, 0#8) := by decide
theorem test_rnd_empty_mask_pc :
    after (exec (.rnd 3#4 0#8) start) State.pc = some 0x202#16 := by decide
theorem test_ldI_clears_high_bits :
    after (exec (.ldI 0x000#12) { start with iReg := 0xFFFF#16 }) State.iReg = some 0#16 := by decide
theorem test_addI_past_memory :
    after (exec (.addI 2#4) { start.setReg 2#4 1#8 with iReg := 0x0FFF#16 }) (fun t => (t.iReg, t.reg VF)) =
      some (0x1000#16, 0#8) := by decide
theorem test_addI_wraps :
    after (exec (.addI 2#4) { start.setReg 2#4 2#8 with iReg := 0xFFFF#16 }) State.iReg = some 1#16 := by decide
theorem test_ldB :
    after (exec (.ldB 0#4) { start.setReg 0#4 254#8 with iReg := 0x300#16 })
      (fun t => (Memory.readBytes t.mem 0x300 3, t.iReg)) = some ([2#8, 5#8, 4#8], 0x300#16) := by decide
theorem test_ldB_outside_writes_nothing :
    after (exec (.ldB 0#4) { start.setReg 0#4 123#8 with iReg := 0xFFE#16 }) (fun t => (t.fault, t.mem)) =
      some (some (.outOfBounds 4096), []) := by decide
theorem test_ldMemRegs :
    after (exec (.ldMemRegs 1#4) { regs2 0#4 0xAA#8 1#4 0xBB#8 with iReg := 0x400#16 })
      (fun t => (Memory.readBytes t.mem 0x400 3, t.iReg)) = some ([0xAA#8, 0xBB#8, 0#8], 0x400#16) := by decide
theorem test_ldMemRegs_outside :
    after (exec (.ldMemRegs 1#4) { start.setReg 0#4 9#8 with iReg := 0xFFF#16 }) (fun t => (t.fault, t.mem)) =
      some (some (.outOfBounds 4096), []) := by decide
theorem test_ldRegsMem :
    after (exec (.ldRegsMem 2#4) ((atI 0x300 [2#8, 5#8, 4#8]).setReg 3#4 0x77#8))
      (fun t => (t.v.toList.take 4, t.iReg)) = some ([2#8, 5#8, 4#8, 0x77#8], 0x300#16) := by decide
theorem test_ldRegsMem_outside :
    after (exec (.ldRegsMem 15#4) { start with iReg := 0xFF1#16 }) (fun t => (t.fault, t.pc)) =
      some (some (.outOfBounds 4096), 0x200#16) := by decide
theorem test_drw_wraps_at_the_right :
    after (exec (.drw 1#4 2#4 1) ((atI 0x300 [0xFF#8]).setReg 1#4 60#8)) (fun t => (onPixels t, t.reg VF)) =
      some ([(0, 0), (1, 0), (2, 0), (3, 0), (60, 0), (61, 0), (62, 0), (63, 0)], 0#8) := by decide
theorem test_drw_collides :
    after (exec (.drw 1#4 2#4 1)
      { (atI 0x300 [0xC0#8]).setReg 1#4 5#8 |>.setReg 2#4 6#8 with fb := Framebuffer.write start.fb 5 6 true })
      (fun t => (onPixels t, t.reg VF)) = some ([(6, 6)], 1#8) := by decide
theorem test_skp_above_fifteen :
    after (exec (.skp 2#4) (start.setReg 2#4 16#8)) (fun t => (t.fault, t.pc)) = some (some (.outOfBounds 16), 0x200#16) := by decide
theorem test_sknp_above_fifteen :
    after (exec (.sknp 2#4) (start.setReg 2#4 0xFF#8)) State.fault = some (some (.outOfBounds 255)) := by decide
theorem test_ldVxDt :
    after (exec (.ldVxDt 3#4) { start with dt := 0x2C#8 }) (fun t => (t.reg 3#4, t.dt)) = some (0x2C#8, 0x2C#8) := by decide
theorem test_ldDtVx :
    after (exec (.ldDtVx 3#4) (start.setReg 3#4 60#8)) State.dt = some 60#8 := by decide
theorem test_ldStVx :
    after (exec (.ldStVx 3#4) (start.setReg 3#4 8#8)) State.st = some 8#8 := by decide

/-- The two ends of a key wait, for every answer of the keypad (95, 2.8). -/
theorem test_ldVxK_ends : after (exec (.ldVxK 3#4) start) State.pc = some 0x200#16 ∨
    after (exec (.ldVxK 3#4) start) State.pc = some 0x202#16 := by
  show some ((start.afterKeyWait 3#4).pc) = _ ∨ some ((start.afterKeyWait 3#4).pc) = _
  unfold State.afterKeyWait
  cases start.keyEvent with
  | none => exact .inl rfl
  | some k => exact .inr rfl

/-- Glyph 7 lies 35 bytes above the font base, whatever the base is (95, 2.7). -/
theorem test_ldF_glyph : after (exec (.ldF 4#4) (start.setReg 4#4 0x07#8)) State.iReg =
    some (BitVec.ofNat 16 (Config.fontBase.val + 35)) := rfl

/-- A mask of 0 gives 0 for every draw (95, 2.6). -/
theorem test_rnd_empty_mask : after (exec (.rnd 3#4 0#8) start) (fun t => t.reg 3#4) = some 0#8 := by
  show some ((start.setReg 3#4 (start.randomByte &&& 0#8)).reg 3#4) = _
  simp [State.reg, State.setReg]

/-! ## Ticks, the step, the load (95, 2.2, 2.9 to 2.11) -/

theorem test_tick : ({ start with dt := 3#8, st := 1#8 }.tick.dt, { start with dt := 3#8, st := 1#8 }.tick.st) = (2#8, 0#8) := by
  decide
theorem test_tick_rests_at_zero : { start with dt := 2#8 }.tick.st = 0#8 := by decide
theorem test_no_step_at_reset : step State.reset = .fault .notLoaded := by rfl
theorem test_stopped_at_4095 : step { start with pc := 0xFFF#16 } = .fault .stopped := by rfl
theorem test_fault_codes : [none, some (.illegalInstruction 0#16), some .stackFull, some .stackEmpty,
    some (.outOfBounds 0)].map faultCode = [0, 1, 2, 3, 4] := by decide
theorem test_step_big_endian : after (step (State.reset.withFetchWord 16 0x1234)) State.pc = some 0x234#16 := by decide
theorem test_step_odd_pc : after (step { start with
    mem := Memory.writeBytes [] 0x201 [0x60#8, 0x05#8], pc := 0x201#16 }) (fun t => (t.reg 0#4, t.pc)) =
    some (5#8, 0x203#16) := by decide
theorem test_step_zero_word_is_illegal : after (step start) (fun t => (t.fault, t.pc)) =
    some (some (.illegalInstruction 0x0000#16), 0x200#16) := by decide
theorem test_load_program : after (State.reset.loadProgram [0x12#8, 0x00#8]) (fun t => (t.mem, t.pc, t.run)) =
    some ([(0x200, 0x12#8)], 0x200#16, .running) := by decide
theorem test_load_twice_refused : start.loadProgram [0x12#8] = .refused .alreadyLoaded := by rfl

/-- Every row's word with all operand bits 0 runs as the first instruction after reset. -/
theorem test_every_row_steps : (opcodeMap.map fun row =>
    match step (State.reset.withFetchWord 16 row.1.toNat) with
    | .next _ => true
    | _ => false) = List.replicate 34 true := by decide

/-! ## Witnesses: states and operands that meet the hypotheses of the statements, clause by clause at the bounds -/

/-- A parked machine: `JP 0x200` at 0x200 (program P1). -/
def parked : State := State.reset.withFetchWord 16 0x1200

/-- A machine about to execute `LD V3, K`. -/
def keyWait : State := State.reset.withFetchWord 16 0xF30A

theorem witness_DecodeOfEncode : ∃ i, WellFormed i = true ∧ i = .drw 1#4 2#4 15 := ⟨_, rfl, rfl⟩
theorem witness_EncodeOfDecode : ∃ w i, decodeWord w = some i := ⟨0x1ABC#16, .jp 0xABC#12, by decide⟩
theorem witness_DecodesIffMatchesRow : ∃ w i, decodeWord w = some i := ⟨0xF30A#16, .ldVxK 3#4, by decide⟩
theorem witness_NoWordMatchesTwoRows : ∃ (w : Word) (j k : Nat) (a b : Word × Word), opcodeMap[j]? = some a ∧
    opcodeMap[k]? = some b ∧ matchesRow w a ∧ matchesRow w b := ⟨0x00E0#16, 0, 0, _, _, rfl, rfl, by decide, by decide⟩
theorem witness_StepRunsDecodedInstruction : parked.Steps ∧ decode parked.fetchBytes = .ok (.jp 0x200#12, []) :=
  ⟨by unfold State.Steps; decide, rfl⟩
theorem witness_StepFetches_stepping : start.Steps := by unfold State.Steps; decide
theorem witness_StepFetches_not_stepping : ¬ State.reset.Steps := by unfold State.Steps; decide
theorem witness_NoStep_notLoaded : State.reset.run = .notLoaded := rfl
theorem witness_NoStep_faulted : { start with fault := some .stackFull }.run = .running ∧
    { start with fault := some .stackFull }.fault ≠ none := by decide
theorem witness_NoStep_stopped : { start with pc := 4095#16 }.run = .running ∧ { start with pc := 4095#16 }.fault = none ∧
    { start with pc := 4095#16 }.pc.toNat > 4094 := by decide
theorem witness_FaultsArePrecise : ∃ t, exec .ret start = .next t ∧ t.fault ≠ start.fault := ⟨_, rfl, by decide⟩
theorem witness_FaultsOnlyWhereListed_stackFull : ∃ t, { start with sp := 16#8 }.fault = none ∧
    exec (.call 0#12) { start with sp := 16#8 } = .next t ∧ t.fault = some .stackFull := ⟨_, rfl, rfl, rfl⟩
theorem witness_FaultsOnlyWhereListed_stackEmpty : ∃ t, start.fault = none ∧
    exec .ret start = .next t ∧ t.fault = some .stackEmpty := ⟨_, rfl, rfl, rfl⟩
theorem witness_FaultsOnlyWhereListed_key : ∃ t, start.fault = none ∧
    exec (.skp 2#4) (start.setReg 2#4 16#8) = .next t ∧ t.fault = some (.outOfBounds 16) := ⟨_, rfl, rfl, rfl⟩
theorem witness_FaultsOnlyWhereListed_address : ∃ t, start.fault = none ∧
    exec (.ldB 0#4) { start with iReg := 0xFFE#16 } = .next t ∧ t.fault = some (.outOfBounds 4096) := ⟨_, rfl, rfl, rfl⟩
theorem witness_EveryInstructionAnswersNext : { start with sp := 16#8 }.sp.toNat ≤ 16 := by decide
theorem witness_StepKeepsMemoryCanonical : ∃ t, parked.MemOk ∧ step parked = .next t :=
  ⟨_, by unfold State.MemOk; decide, rfl⟩
theorem witness_StepKeepsBounds : ∃ t, start.Bounded ∧ step start = .next t := by
  refine ⟨_, ⟨by decide, fun k => ?_, by decide⟩, rfl⟩
  simp [start, State.reset]
theorem witness_StateWritten_sp : ∃ t, exec .ret { start with sp := 16#8 } = .next t ∧ t.sp ≠ 16#8 := ⟨_, rfl, by decide⟩
theorem witness_StateWritten_stack : ∃ t, exec (.call 0#12) start = .next t ∧ t.stack ≠ start.stack := ⟨_, rfl, by decide⟩
theorem witness_StateWritten_dt : ∃ t, exec (.ldDtVx 3#4) (start.setReg 3#4 60#8) = .next t ∧ t.dt ≠ 0#8 := ⟨_, rfl, by decide⟩
theorem witness_StateWritten_st : ∃ t, exec (.ldStVx 3#4) (start.setReg 3#4 60#8) = .next t ∧ t.st ≠ 0#8 := ⟨_, rfl, by decide⟩
theorem witness_StateWritten_i : ∃ t, exec (.ldI 5#12) start = .next t ∧ t.iReg ≠ start.iReg := ⟨_, rfl, by decide⟩
theorem witness_StateWritten_mem : ∃ t, exec (.ldB 0#4) (start.setReg 0#4 7#8) = .next t ∧
    Memory.read t.mem 2 ≠ Memory.read start.mem 2 := ⟨_, rfl, by decide⟩
theorem witness_StateWritten_fb : ∃ t, exec .cls { start with fb := Framebuffer.write start.fb 3 4 true } = .next t ∧
    t.fb ≠ Framebuffer.write start.fb 3 4 true := ⟨_, rfl, by decide⟩
theorem witness_RegistersWritten : ∃ t, exec (.addReg 1#4 2#4) (regs2 1#4 0xFF#8 2#4 1#8) = .next t ∧
    t.reg VF ≠ (regs2 1#4 0xFF#8 2#4 1#8).reg VF := ⟨_, rfl, by decide⟩
theorem witness_TimersRiseOnlyWhenWritten : ∃ t, step parked = .next t ∧
    (∀ x rest, decode parked.fetchBytes ≠ .ok (.ldDtVx x, rest)) ∧
    (∀ x rest, decode parked.fetchBytes ≠ .ok (.ldStVx x, rest)) := by
  have h : decode parked.fetchBytes = .ok (.jp 0x200#12, []) := rfl
  exact ⟨_, rfl, fun x rest => by simp [h], fun x rest => by simp [h]⟩
theorem witness_ResetLeavesZeros : ∃ s t : State, (t = State.reset ∨ t = s.resetEvent) ∧ s.run = .running := ⟨start, _, .inr rfl, rfl⟩
theorem witness_LoadProgramCopiesRom : State.reset.run = .notLoaded ∧ (List.replicate 3584 0x12#8).length ≤ 3584 :=
  ⟨rfl, le_of_eq List.length_replicate⟩
theorem witness_LoadsRefused_running : start.run = .running := rfl
theorem witness_LoadsRefused_tooLong : State.reset.run = .notLoaded ∧ (List.replicate 3585 0x12#8).length > 3584 :=
  ⟨rfl, by rw [List.length_replicate]; decide⟩
theorem witness_LoadsRefused_both : start.run = .running ∧ (List.replicate 3585 0x12#8).length > 3584 :=
  ⟨rfl, by rw [List.length_replicate]; decide⟩
theorem witness_LoadFontCopiesTable : State.reset.run = .notLoaded := rfl
theorem witness_EntryState : (List.replicate 3584 0x12#8).length ≤ 3584 := le_of_eq List.length_replicate
theorem witness_MemoryPrimitives_top : (4095 : Nat) ≤ 4095 := by decide
theorem witness_MemoryPrimitives_outside : (4096 : Nat) > 4095 := by decide
theorem witness_PushAndPop_full : { start with sp := 16#8 }.sp.toNat = 16 := by decide
theorem witness_PushAndPop_push : { start with sp := 15#8 }.sp.toNat < 16 := by decide
theorem witness_PushAndPop_empty : start.sp.toNat = 0 := by decide
theorem witness_PushAndPop_pop : { start with sp := 16#8 }.sp.toNat - 1 < 16 ∧ { start with sp := 16#8 }.sp.toNat ≠ 0 := by decide
theorem witness_CallThenRetReturns : { start with sp := 15#8 }.sp.toNat < 16 := by decide
theorem witness_DrwXorsSprite_rows : (15 : Nat) ≤ 15 ∧ { start with iReg := 0xFF1#16 }.iReg.toNat + 15 - 1 ≤ 4095 := by decide
theorem witness_DrwXorsSprite_no_rows : (0 : Nat) ≤ 15 ∧
    ((0 : Nat) = 0 ∨ { start with iReg := 0xFFFF#16 }.iReg.toNat + 0 - 1 ≤ 4095) := by decide
theorem witness_DrwXorsSprite_collision : ∃ t, exec (.drw 1#4 2#4 1)
    { atI 0x300 [0x80#8] with fb := Framebuffer.write start.fb 0 0 true } = .next t ∧ t.pixel 0 0 = false := ⟨_, rfl, by decide⟩
theorem witness_DrwTwiceRestoresDisplay : (15 : Nat) ≤ 15 ∧ { start with iReg := 0xFF1#16 }.iReg.toNat + 15 - 1 ≤ 4095 := by decide
theorem witness_MemoryInstructionsOutOfBounds_drw : (1 : Nat) > 0 ∧
    { start with iReg := 4096#16 }.iReg.toNat + 1 - 1 > 4095 := by decide
theorem witness_MemoryInstructionsOutOfBounds_ldB : { start with iReg := 4094#16 }.iReg.toNat + 2 > 4095 := by decide
theorem witness_MemoryInstructionsOutOfBounds_regs : { start with iReg := 4081#16 }.iReg.toNat + (15#4).toNat > 4095 := by decide
theorem witness_RetPopsReturnAddress : { start with sp := 16#8 }.sp.toNat - 1 < 16 ∧ { start with sp := 16#8 }.sp.toNat ≠ 0 := by
  decide
theorem witness_CallAndRetStackFaults_call : { start with sp := 16#8 }.sp.toNat = 16 := by decide
theorem witness_CallAndRetStackFaults_ret : start.sp.toNat = 0 := by decide
theorem witness_JpSetsPc_self : (0x200#12).toNat = start.pc.toNat := by decide
theorem witness_CallPushesReturnAddress : { start with sp := 15#8 }.sp.toNat < 16 := by decide
theorem witness_AddSetsCarry_other : (1#4 : RegIdx) ≠ VF := by decide
theorem witness_SubSetsNoBorrow_other : (14#4 : RegIdx) ≠ VF := by decide
theorem witness_SubnSetsNoBorrow_other : (0#4 : RegIdx) ≠ VF := by decide
theorem witness_ShiftsInPlace_other : (14#4 : RegIdx) ≠ VF := by decide
theorem witness_LdBStoresDecimalDigits : { start with iReg := 0xFFD#16 }.iReg.toNat + 2 ≤ 4095 := by decide
theorem witness_RegisterDump : { start with iReg := 0xFF0#16 }.iReg.toNat + (15#4).toNat ≤ 4095 := by decide
theorem witness_RegisterLoad : { start with iReg := 0xFFF#16 }.iReg.toNat + (0#4).toNat ≤ 4095 := by decide
theorem witness_SkipsOnKey : ((start.setReg 2#4 15#8).reg 2#4).toNat ≤ 15 := by decide
theorem witness_KeyNumberOutOfBounds : ((start.setReg 2#4 16#8).reg 2#4).toNat > 15 := by decide
theorem witness_WaitingOutput_key_wait : keyWait.Steps ∧ decode keyWait.fetchBytes = .ok (.ldVxK 3#4, []) :=
  ⟨by unfold State.Steps; decide, rfl⟩
theorem witness_WaitingOutput_no_step : ¬ { keyWait with run := .notLoaded }.Steps := by unfold State.Steps; decide
theorem witness_WaitingOutput_other : ∀ x rest, decode parked.fetchBytes ≠ .ok (.ldVxK x, rest) := by
  have h : decode parked.fetchBytes = .ok (.jp 0x200#12, []) := rfl
  exact fun x rest => by simp [h]
theorem witness_ParkedStaysParked : parked.Parked := ⟨by unfold State.Steps; decide, by decide⟩

end Sys2Proof.Tests
end

-- The call stack: what a push and a pop answer at each depth.
section
namespace Sys2Proof.Machine

/-- Settles O27: one law of the stack for each of the four clauses of R29 and R30. -/
theorem pushAndPop : Obligations.PushAndPop := by
  unfold Obligations.PushAndPop
  intro s a
  refine ⟨?full, ?push, ?empty, ?pop⟩
  case full => exact State.push_full s a
  case push => exact State.push_ok s a
  case empty => exact State.pop_empty s
  case pop => exact fun hslot hdepth => State.pop_ok s hdepth hslot

end Sys2Proof.Machine
end

-- The two memory primitives on one byte (R60, R61).
section
namespace Sys2Proof.Machine

/-- R60 on one byte in range: the cell at the address. -/
theorem State.memRead_byte (s : State) (a : Nat) (ha : a ≤ 4095) :
    s.memRead a 1 = .ok [Memory.read s.mem a] := State.memRead_ok s a 1 (by omega)

/-- R61 on one byte in range: that one cell is written. -/
theorem State.memWrite_byte (s : State) (a : Nat) (b : Byte) (ha : a ≤ 4095) :
    s.memWrite a [b] = .ok { s with mem := Memory.write s.mem a b } :=
  State.memWrite_ok s a [b] (by simp only [List.length_singleton]; omega)

/-- R60 on one byte out of range: the condition carries the address itself, not a wrapped one. -/
theorem State.memRead_byte_outside (s : State) (a : Nat) (ha : a > 4095) :
    s.memRead a 1 = .error (.raised (.outOfBounds a)) := by
  rw [State.memRead_outside s a 1 (by decide) (by omega), Nat.max_eq_left (by omega)]

/-- R61 on one byte out of range: the condition carries the address itself, not a wrapped one. -/
theorem State.memWrite_byte_outside (s : State) (a : Nat) (b : Byte) (ha : a > 4095) :
    s.memWrite a [b] = .error (.raised (.outOfBounds a)) := by
  have hlen : 4096 < a + [b].length := by simp only [List.length_singleton]; omega
  rw [State.memWrite_outside s a [b] (by simp) hlen, Nat.max_eq_left (by omega)]

/-- Settles O26: in range, the round trip and the frame are the two cases of `Memory.read_write`; out of range, neither
primitive answers a value or a state. -/
theorem memoryPrimitives : Obligations.MemoryPrimitives := by
  unfold Obligations.MemoryPrimitives
  intro s a b
  refine ⟨fun ha => ⟨State.memRead_byte s a ha, _, State.memWrite_byte s a b ha, ?roundTrip, rfl, ?frame⟩, ?outside⟩
  case roundTrip => rw [State.memRead_byte _ a ha, Memory.read_write, if_pos rfl]
  case frame => exact fun c hc => by rw [Memory.read_write, if_neg hc]
  case outside => exact fun ha => ⟨State.memRead_byte_outside s a ha, State.memWrite_byte_outside s a b ha⟩

end Sys2Proof.Machine
end

-- CLS on the whole state (R141).
section
namespace Sys2Proof.Machine

/-- The answer of CLS: the cleared framebuffer, then the normal advance. -/
theorem exec_cls (s : State) : exec .cls s = .next { s with fb := Framebuffer.clear }.advance := rfl

/-- Settles O29: the pixels by `Framebuffer.pixel_clear`; `pc` and the frame are those of `State.advance`. -/
theorem clsClearsDisplay : Obligations.ClsClearsDisplay := by
  unfold Obligations.ClsClearsDisplay
  intro s
  refine ⟨_, exec_cls s, ?pixels, State.advance_pc _, ?frame⟩
  case pixels => exact Framebuffer.pixel_clear
  case frame => rfl

end Sys2Proof.Machine
end

-- JP: the decoding of its word, and the jump to the 12-bit address (R152).
section
namespace Sys2Proof.Machine

/-- The answer of JP: the jump to its immediate. -/
theorem exec_jp (s : State) (nnn : Addr) : exec (.jp nnn) s = .next (s.jump (addrOperand nnn)) := rfl

/-- Of the 16 categories of R99, category 1 reads the word `1NNN`. -/
theorem decodeWord_jp (nnn : Addr) : decodeWord (0x1#4 ++ nnn) = some (.jp nnn) := by
  simp [decodeWord, opField_nnn, nnnField_nnn]

/-- A 12-bit immediate used as an address keeps its value (R96). -/
theorem addrOperand_toNat (nnn : Addr) : (addrOperand nnn).toNat = nnn.toNat :=
  BitVec.toNat_setWidth_of_le (by decide)

/-- The corner case of R152: a jump to the address `pc` already holds leaves the whole state as it was. -/
theorem State.jump_pc_self (s : State) : s.jump s.pc = s := rfl

/-- Settles O35: the frame is that of `State.jump`; a jump to its own address is `State.jump_pc_self`. -/
theorem jpSetsPc : Obligations.JpSetsPc := by
  unfold Obligations.JpSetsPc
  intro s nnn
  refine ⟨decodeWord_jp nnn, _, exec_jp s nnn, addrOperand_toNat nnn, ?frame, ?selfJump⟩
  case frame => rfl
  case selfJump =>
    intro hself
    have htarget : addrOperand nnn = s.pc := BitVec.eq_of_toNat_eq ((addrOperand_toNat nnn).trans hself)
    rw [htarget, State.jump_pc_self]

end Sys2Proof.Machine
end

-- The four skips on a comparison of bytes (R154 to R157).
section
namespace Sys2Proof.Machine

/-- The answer of SE Vx, nn: a skip on equality. -/
theorem exec_seImm (s : State) (x : RegIdx) (nn : Byte) :
    exec (.seImm x nn) s = .next (s.skipIf (decide (s.reg x = nn))) := rfl

/-- The answer of SNE Vx, nn: a skip on inequality. -/
theorem exec_sneImm (s : State) (x : RegIdx) (nn : Byte) :
    exec (.sneImm x nn) s = .next (s.skipIf (decide (s.reg x ≠ nn))) := rfl

/-- The answer of SE Vx, Vy: a skip on equality. -/
theorem exec_seReg (s : State) (x y : RegIdx) :
    exec (.seReg x y) s = .next (s.skipIf (decide (s.reg x = s.reg y))) := rfl

/-- The answer of SNE Vx, Vy: a skip on inequality. -/
theorem exec_sneReg (s : State) (x y : RegIdx) :
    exec (.sneReg x y) s = .next (s.skipIf (decide (s.reg x ≠ s.reg y))) := rfl

/-- A skip writes `pc` and nothing else (R124, R150). -/
theorem State.skipIf_frame (s : State) (c : Bool) : s.skipIf c = { s with pc := (s.skipIf c).pc } := rfl

/-- Where a skip on equal bytes goes, the bytes compared as unsigned numbers (R154). -/
theorem State.skipIf_eq_pc (s : State) (a b : Byte) :
    (s.skipIf (decide (a = b))).pc = s.pc + (if a.toNat = b.toNat then 4#16 else 2#16) := by
  simp only [State.skipIf_pc, decide_eq_true_eq, BitVec.toNat_inj]

/-- Where a skip on different bytes goes, the bytes compared as unsigned numbers (R155). -/
theorem State.skipIf_ne_pc (s : State) (a b : Byte) :
    (s.skipIf (decide (a ≠ b))).pc = s.pc + (if a.toNat = b.toNat then 2#16 else 4#16) := by
  simp only [State.skipIf_pc, decide_eq_true_eq, BitVec.toNat_inj, ne_eq, ite_not]

/-- Settles O37: a skip on equality and one on inequality, of `V[x]` and the immediate. -/
theorem skipsOnImmediate : Obligations.SkipsOnImmediate := by
  unfold Obligations.SkipsOnImmediate
  intro s x nn
  constructor
  · exact ⟨_, exec_seImm s x nn, s.skipIf_eq_pc _ _, s.skipIf_frame _⟩
  · exact ⟨_, exec_sneImm s x nn, s.skipIf_ne_pc _ _, s.skipIf_frame _⟩

/-- Settles O38: a skip on equality and one on inequality, of `V[x]` and `V[y]`. -/
theorem skipsOnRegisters : Obligations.SkipsOnRegisters := by
  unfold Obligations.SkipsOnRegisters
  intro s x y
  constructor
  · exact ⟨_, exec_seReg s x y, s.skipIf_eq_pc _ _, s.skipIf_frame _⟩
  · exact ⟨_, exec_sneReg s x y, s.skipIf_ne_pc _ _, s.skipIf_frame _⟩

end Sys2Proof.Machine
end

-- The loads into a register and the flagless add (R173 to R175): one write of `V[x]`, then the advance.
section
namespace Sys2Proof.Machine

/-- The answer of LD Vx, nn: the immediate in `V[x]`. -/
theorem exec_ldImm (s : State) (x : RegIdx) (nn : Byte) :
    exec (.ldImm x nn) s = .next (s.setReg x nn).advance := rfl

/-- The answer of LD Vx, Vy: the value of `V[y]` in `V[x]`. -/
theorem exec_ldReg (s : State) (x y : RegIdx) :
    exec (.ldReg x y) s = .next (s.setReg x (s.reg y)).advance := rfl

/-- The answer of ADD Vx, nn: the sum in `V[x]`, and no write of VF. -/
theorem exec_addImm (s : State) (x : RegIdx) (nn : Byte) :
    exec (.addImm x nn) s = .next (s.setReg x (s.reg x + nn)).advance := rfl

/-- The register written holds the byte after the advance. -/
theorem State.reg_setReg_advance_same (s : State) (x : RegIdx) (b : Byte) : (s.setReg x b).advance.reg x = b := by
  rw [State.reg_advance, State.reg_setReg, if_pos rfl]

/-- A write of `V[x]` and the advance leave every other register as it was. -/
theorem State.reg_setReg_advance_of_ne (s : State) {x k : RegIdx} (b : Byte) (hk : k ≠ x) :
    (s.setReg x b).advance.reg k = s.reg k := by
  rw [State.reg_advance, State.reg_setReg, if_neg hk]

/-- A write of a register and the advance touch the registers and `pc`, and no other field. -/
theorem State.setReg_advance_frame (s : State) (x : RegIdx) (b : Byte) :
    (s.setReg x b).advance = { s with v := (s.setReg x b).advance.v, pc := (s.setReg x b).advance.pc } := rfl

/-- Settles O40: each load is one write of `V[x]`, whose effect and frame are the laws of `setReg` and `advance`. -/
theorem loadsIntoRegister : Obligations.LoadsIntoRegister := by
  unfold Obligations.LoadsIntoRegister
  intro s x y nn
  constructor
  · exact ⟨_, exec_ldImm s x nn, s.reg_setReg_advance_same x nn, fun _ => s.reg_setReg_advance_of_ne nn,
      State.advance_pc _, s.setReg_advance_frame x nn⟩
  · exact ⟨_, exec_ldReg s x y, s.reg_setReg_advance_same x _, fun _ => s.reg_setReg_advance_of_ne _,
      State.advance_pc _, s.setReg_advance_frame x _⟩

/-- Settles O41: the sum of two bytes is the sum of their numbers modulo 256; VF is one of the registers left unchanged. -/
theorem addImmediateSetsNoFlag : Obligations.AddImmediateSetsNoFlag := by
  unfold Obligations.AddImmediateSetsNoFlag
  intro s x nn
  refine ⟨_, exec_addImm s x nn, ?sum, fun _ => s.reg_setReg_advance_of_ne _, State.advance_pc _,
    s.setReg_advance_frame x _⟩
  case sum => rw [State.reg_setReg_advance_same, BitVec.toNat_add]

end Sys2Proof.Machine
end

-- LD I: the 12-bit immediate in `I`, then the advance (R201).
section
namespace Sys2Proof.Machine

/-- The answer of LD I, nnn: the immediate, widened to an address, in `I`. -/
theorem exec_ldI (s : State) (nnn : Addr) : exec (.ldI nnn) s = .next (s.setI (addrOperand nnn)).advance := rfl

/-- A write of `I` and the advance touch `I` and `pc`, and no other field. -/
theorem State.setI_advance_frame (s : State) (a : Word) :
    (s.setI a).advance = { s with iReg := (s.setI a).advance.iReg, pc := (s.setI a).advance.pc } := rfl

/-- Settles O48: the word written to `I` has the value of the immediate, and the frame is that of `setI` and `advance`. -/
theorem ldISetsAddress : Obligations.LdISetsAddress := by
  unfold Obligations.LdISetsAddress
  intro s nnn
  refine ⟨_, exec_ldI s nnn, ?address, State.advance_pc _, s.setI_advance_frame _⟩
  case address => rw [State.advance_iReg, State.setI_iReg, addrOperand_toNat]

end Sys2Proof.Machine
end

-- The three timer moves (R231 to R233): one write of `V[x]`, `DT` or `ST`, then the advance.
section
namespace Sys2Proof.Machine

/-- The answer of LD Vx, DT: the delay timer in `V[x]`. -/
theorem exec_ldVxDt (s : State) (x : RegIdx) : exec (.ldVxDt x) s = .next (s.setReg x s.dt).advance := rfl

/-- The answer of LD DT, Vx: `V[x]` in the delay timer. -/
theorem exec_ldDtVx (s : State) (x : RegIdx) : exec (.ldDtVx x) s = .next (s.setDt (s.reg x)).advance := rfl

/-- The answer of LD ST, Vx: `V[x]` in the sound timer. -/
theorem exec_ldStVx (s : State) (x : RegIdx) : exec (.ldStVx x) s = .next (s.setSt (s.reg x)).advance := rfl

/-- The delay timer holds the byte written to it after the advance. -/
theorem State.setDt_advance_dt (s : State) (b : Byte) : (s.setDt b).advance.dt = b := by
  rw [State.advance_dt, State.setDt_dt]

/-- The sound timer holds the byte written to it after the advance. -/
theorem State.setSt_advance_st (s : State) (b : Byte) : (s.setSt b).advance.st = b := by
  rw [State.advance_st, State.setSt_st]

/-- A write of the delay timer and the advance touch `DT` and `pc`, and no other field. -/
theorem State.setDt_advance_frame (s : State) (b : Byte) :
    (s.setDt b).advance = { s with dt := (s.setDt b).advance.dt, pc := (s.setDt b).advance.pc } := rfl

/-- A write of the sound timer and the advance touch `ST` and `pc`, and no other field. -/
theorem State.setSt_advance_frame (s : State) (b : Byte) :
    (s.setSt b).advance = { s with st := (s.setSt b).advance.st, pc := (s.setSt b).advance.pc } := rfl

/-- Settles O58: each move is one write, whose effect and frame are the laws of `setReg`, `setDt` or `setSt` with `advance`. -/
theorem timerMoves : Obligations.TimerMoves := by
  unfold Obligations.TimerMoves
  intro s x
  refine ⟨?readDelay, ?writeDelay, ?writeSound⟩
  case readDelay =>
    exact ⟨_, exec_ldVxDt s x, s.reg_setReg_advance_same x _, fun _ => s.reg_setReg_advance_of_ne _,
      State.advance_pc _, s.setReg_advance_frame x _⟩
  case writeDelay =>
    exact ⟨_, exec_ldDtVx s x, s.setDt_advance_dt _, State.advance_pc _, s.setDt_advance_frame _⟩
  case writeSound =>
    exact ⟨_, exec_ldStVx s x, s.setSt_advance_st _, State.advance_pc _, s.setSt_advance_frame _⟩

end Sys2Proof.Machine
end

-- The two stack faults: a CALL on a full stack, a RET on an empty one (R242, R243).
section
namespace Sys2Proof.Machine

/-- A push that raises a condition enters it in the state before the `CALL`. -/
theorem exec_call_of_push_raised {s : State} (nnn : Addr) {k : FaultKind}
    (h : s.push (s.pc + 2#16) = .error (.raised k)) : exec (.call nnn) s = .next { s with fault := some k } := by
  change execCall nnn s = _
  simp only [execCall, h, Abort.enter_raised]

/-- A pop that raises a condition enters it in the state before the `RET`. -/
theorem exec_ret_of_pop_raised {s : State} {k : FaultKind} (h : s.pop = .error (.raised k)) :
    exec .ret s = .next { s with fault := some k } := by
  change execRet s = _
  simp only [execRet, h, Abort.enter_raised]

/-- Settles O34: the full push and the empty pop raise their conditions, and each instruction enters its own. -/
theorem callAndRetStackFaults : Obligations.CallAndRetStackFaults := by
  unfold Obligations.CallAndRetStackFaults
  intro s nnn
  constructor
  · exact fun hfull => exec_call_of_push_raised nnn (State.push_full s _ hfull)
  · exact fun hempty => exec_ret_of_pop_raised (State.pop_empty s hempty)

end Sys2Proof.Machine
end

-- The host's program load: a ROM that fits is copied and the machine starts (R288, R290).
section
namespace Sys2Proof.Machine

/-- The answer of LoadProgram on a machine that is not loaded, for a ROM that fits. -/
theorem State.loadProgram_of_fits {s : State} {rom : List Byte} (hrun : s.run = .notLoaded) (hlen : rom.length ≤ 3584) :
    s.loadProgram rom = .next { s with
      mem := Memory.writeBytes s.mem Config.programStart rom
      pc := BitVec.ofNat 16 Config.programStart
      run := .running } := by
  have hnotRunning : s.run ≠ .running := by simp [hrun]
  have hfits : ¬ rom.length > Config.maxRom := Nat.not_lt.mpr hlen
  rw [State.loadProgram, if_neg hnotRunning, if_neg hfits]

/-- Settles O22: the ROM's bytes and the bytes outside it by the two laws of `Memory.writeBytes`; PROGRAM_START fits in `pc`. -/
theorem loadProgramCopiesRom : Obligations.LoadProgramCopiesRom := by
  unfold Obligations.LoadProgramCopiesRom
  intro s rom hrun hlen
  refine ⟨_, State.loadProgram_of_fits hrun hlen, ?copied, ?outside, ?startAddress, rfl, ?frame⟩
  case copied => exact fun k hk => Memory.read_writeBytes_inside rom s.mem _ k hk
  case outside => exact fun a ha => Memory.read_writeBytes_outside rom s.mem _ a ha
  case startAddress => rfl
  case frame => rfl

end Sys2Proof.Machine
end

-- Decoding an instruction's own word (R98, R99).
section
namespace Sys2Proof

/-- In the arithmetic group the low nibble selects. -/
theorem decodeWord_group8 (x y n : BitVec 4) : decodeWord (0x8#4 ++ x ++ y ++ n) = decodeGroup8 x y n := by
  simp [decodeWord, opField_xyn, xField_xyn, yField_xyn, nField_xyn]

/-- In the input group the low byte selects. -/
theorem decodeWord_groupE (x : RegIdx) (nn : Byte) : decodeWord (0xE#4 ++ x ++ nn) = decodeGroupE x nn := by
  simp [decodeWord, opField_xnn, xField_xnn, nnField_xnn]

/-- In the memory and timer group the low byte selects. -/
theorem decodeWord_groupF (x : RegIdx) (nn : Byte) : decodeWord (0xF#4 ++ x ++ nn) = decodeGroupF x nn := by
  simp [decodeWord, opField_xnn, xField_xnn, nnField_xnn]

/-- The decoder undoes the encoder on every well-formed instruction: a word of a group is left to the group's table, any other
is told by its category. -/
theorem decodeWord_encode (i : Instr) (hwf : WellFormed i = true) : decodeWord (encode i) = some i := by
  cases i with
  | cls | ret => rfl
  | jp nnn => exact Machine.decodeWord_jp nnn
  | call nnn | ldI nnn | jpV0 nnn => simp [encode, decodeWord, opField_nnn, nnnField_nnn]
  | seImm x nn | sneImm x nn | ldImm x nn | addImm x nn | rnd x nn =>
    simp [encode, decodeWord, opField_xnn, xField_xnn, nnField_xnn]
  | seReg x y | sneReg x y => simp [encode, decodeWord, opField_xyn, xField_xyn, yField_xyn, nField_xyn]
  | ldReg x y | orReg x y | andReg x y | xorReg x y | addReg x y | subReg x y | shr x y | subnReg x y | shl x y =>
    exact decodeWord_group8 x y _
  | drw x y n =>
    have hrows : n < 16 := Nat.lt_succ_of_le (of_decide_eq_true hwf)
    simp [encode, decodeWord, opField_xyn, xField_xyn, yField_xyn, nField_xyn, Nat.mod_eq_of_lt hrows]
  | skp x | sknp x => exact decodeWord_groupE x _
  | ldVxDt x | ldVxK x | ldDtVx x | ldStVx x | addI x | ldF x | ldB x | ldMemRegs x | ldRegsMem x =>
    exact decodeWord_groupF x _

/-- Settles O2: the two bytes give the word back, and the word the instruction. -/
theorem decodeOfEncode : Obligations.DecodeOfEncode := by
  unfold Obligations.DecodeOfEncode
  intro i rest hwf
  rw [encodeBytes, decode_bytes, decodeWord_encode i hwf]

end Sys2Proof
end

-- Encoding what a word decodes to, and the words that decode to nothing (R99, R105).
section
namespace Sys2Proof

/-- Everything the decision tree of R99 can answer, category by category. -/
theorem decodeWord_cases (w : Word) :
    (opField w = 0x0#4 ∧ decodeWord w = decodeGroup0 w) ∨
    (opField w = 0x1#4 ∧ decodeWord w = some (.jp (nnnField w))) ∨
    (opField w = 0x2#4 ∧ decodeWord w = some (.call (nnnField w))) ∨
    (opField w = 0x3#4 ∧ decodeWord w = some (.seImm (xField w) (nnField w))) ∨
    (opField w = 0x4#4 ∧ decodeWord w = some (.sneImm (xField w) (nnField w))) ∨
    (opField w = 0x5#4 ∧ decodeWord w = if nField w = 0x0#4 then some (.seReg (xField w) (yField w)) else none) ∨
    (opField w = 0x6#4 ∧ decodeWord w = some (.ldImm (xField w) (nnField w))) ∨
    (opField w = 0x7#4 ∧ decodeWord w = some (.addImm (xField w) (nnField w))) ∨
    (opField w = 0x8#4 ∧ decodeWord w = decodeGroup8 (xField w) (yField w) (nField w)) ∨
    (opField w = 0x9#4 ∧ decodeWord w = if nField w = 0x0#4 then some (.sneReg (xField w) (yField w)) else none) ∨
    (opField w = 0xA#4 ∧ decodeWord w = some (.ldI (nnnField w))) ∨
    (opField w = 0xB#4 ∧ decodeWord w = some (.jpV0 (nnnField w))) ∨
    (opField w = 0xC#4 ∧ decodeWord w = some (.rnd (xField w) (nnField w))) ∨
    (opField w = 0xD#4 ∧ decodeWord w = some (.drw (xField w) (yField w) (nField w).toNat)) ∨
    (opField w = 0xE#4 ∧ decodeWord w = decodeGroupE (xField w) (nnField w)) ∨
    (opField w = 0xF#4 ∧ decodeWord w = decodeGroupF (xField w) (nnField w)) := by
  have hcategory : ∀ o : BitVec 4, o = 0x0#4 ∨ o = 0x1#4 ∨ o = 0x2#4 ∨ o = 0x3#4 ∨ o = 0x4#4 ∨ o = 0x5#4 ∨
      o = 0x6#4 ∨ o = 0x7#4 ∨ o = 0x8#4 ∨ o = 0x9#4 ∨ o = 0xA#4 ∨ o = 0xB#4 ∨ o = 0xC#4 ∨ o = 0xD#4 ∨ o = 0xE#4 ∨
      o = 0xF#4 := by decide
  rcases hcategory (opField w) with h | h | h | h | h | h | h | h | h | h | h | h | h | h | h | h <;>
    simp [decodeWord, h]

/-- `i` is well-formed and `w` is its word. -/
def IsWordOf (w : Word) (i : Instr) : Prop := WellFormed i = true ∧ encode i = w

/-! Each group's table is split entry by entry: the entry hit names the selecting field, and no entry gives no instruction. -/

theorem isWordOf_of_decodeGroup0 {w : Word} {i : Instr} (h : decodeGroup0 w = some i) : IsWordOf w i := by
  unfold decodeGroup0 at h
  split_ifs at h <;> cases h <;> exact ⟨rfl, ‹w = _› ▸ rfl⟩

theorem isWordOf_of_decodeGroup8 {x y n : BitVec 4} {i : Instr} (h : decodeGroup8 x y n = some i) :
    IsWordOf (0x8#4 ++ x ++ y ++ n) i := by
  unfold decodeGroup8 at h
  split_ifs at h <;> cases h <;> exact ⟨rfl, ‹n = _› ▸ rfl⟩

theorem isWordOf_of_decodeGroupE {x : RegIdx} {nn : Byte} {i : Instr} (h : decodeGroupE x nn = some i) :
    IsWordOf (0xE#4 ++ x ++ nn) i := by
  unfold decodeGroupE at h
  split_ifs at h <;> cases h <;> exact ⟨rfl, ‹nn = _› ▸ rfl⟩

theorem isWordOf_of_decodeGroupF {x : RegIdx} {nn : Byte} {i : Instr} (h : decodeGroupF x nn = some i) :
    IsWordOf (0xF#4 ++ x ++ nn) i := by
  unfold decodeGroupF at h
  split_ifs at h <;> cases h <;> exact ⟨rfl, ‹nn = _› ▸ rfl⟩

/-- A word of the three layouts of R93 with its category known. -/
theorem word_of_category (w : Word) {o : BitVec 4} (h : opField w = o) :
    o ++ nnnField w = w ∧ o ++ xField w ++ nnField w = w ∧ o ++ xField w ++ yField w ++ nField w = w := by
  subst h
  exact ⟨fields_nnn w, fields_xnn w, fields_xyn w⟩

/-- What a word decodes to is well-formed and has that word: by category, the fields put together again are the word. -/
theorem isWordOf_of_decodeWord {w : Word} {i : Instr} (h : decodeWord w = some i) : IsWordOf w i := by
  rcases decodeWord_cases w with ⟨ho, hd⟩ | ⟨ho, hd⟩ | ⟨ho, hd⟩ | ⟨ho, hd⟩ | ⟨ho, hd⟩ | ⟨ho, hd⟩ | ⟨ho, hd⟩ | ⟨ho, hd⟩ |
    ⟨ho, hd⟩ | ⟨ho, hd⟩ | ⟨ho, hd⟩ | ⟨ho, hd⟩ | ⟨ho, hd⟩ | ⟨ho, hd⟩ | ⟨ho, hd⟩ | ⟨ho, hd⟩ <;>
    obtain ⟨hnnn, hxnn, hxyn⟩ := word_of_category w ho <;> rw [hd] at h
  · exact isWordOf_of_decodeGroup0 h
  · cases h; exact ⟨rfl, hnnn⟩
  · cases h; exact ⟨rfl, hnnn⟩
  · cases h; exact ⟨rfl, hxnn⟩
  · cases h; exact ⟨rfl, hxnn⟩
  · split_ifs at h with hn; cases h; rw [hn] at hxyn; exact ⟨rfl, hxyn⟩
  · cases h; exact ⟨rfl, hxnn⟩
  · cases h; exact ⟨rfl, hxnn⟩
  · exact hxyn ▸ isWordOf_of_decodeGroup8 h
  · split_ifs at h with hn; cases h; rw [hn] at hxyn; exact ⟨rfl, hxyn⟩
  · cases h; exact ⟨rfl, hnnn⟩
  · cases h; exact ⟨rfl, hnnn⟩
  · cases h; exact ⟨rfl, hxnn⟩
  · cases h
    refine ⟨decide_eq_true (by omega), ?_⟩
    rw [encode, BitVec.ofNat_toNat, BitVec.setWidth_eq]
    exact hxyn
  · exact hxnn ▸ isWordOf_of_decodeGroupE h
  · exact hxnn ▸ isWordOf_of_decodeGroupF h

/-- Settles O3: `IsWordOf` is the conclusion. -/
theorem encodeOfDecode : Obligations.EncodeOfDecode := by
  unfold Obligations.EncodeOfDecode
  exact fun _ _ => isWordOf_of_decodeWord

/-- One entry of a table of R99, for the words it does not hold. -/
theorem ite_some_eq_none {c : Prop} [Decidable c] {i : Instr} {e : Option Instr} :
    (if c then some i else e) = none ↔ ¬ c ∧ e = none := by
  split <;> simp [*]

theorem decodeGroup0_eq_none (w : Word) : decodeGroup0 w = none ↔ w ≠ 0x00E0#16 ∧ w ≠ 0x00EE#16 := by
  simp [decodeGroup0, ite_some_eq_none]

/-- The nibbles the arithmetic group lacks are the seven that R105 lists. -/
theorem decodeGroup8_eq_none (x y n : BitVec 4) :
    decodeGroup8 x y n = none ↔ n ∈ [0x8#4, 0x9#4, 0xA#4, 0xB#4, 0xC#4, 0xD#4, 0xF#4] := by
  have htable : ∀ m : BitVec 4, (m ≠ 0x0#4 ∧ m ≠ 0x1#4 ∧ m ≠ 0x2#4 ∧ m ≠ 0x3#4 ∧ m ≠ 0x4#4 ∧ m ≠ 0x5#4 ∧ m ≠ 0x6#4 ∧
      m ≠ 0x7#4 ∧ m ≠ 0xE#4) ↔ m ∈ [0x8#4, 0x9#4, 0xA#4, 0xB#4, 0xC#4, 0xD#4, 0xF#4] := by decide
  rw [← htable]
  simp [decodeGroup8, ite_some_eq_none]

theorem decodeGroupE_eq_none (x : RegIdx) (nn : Byte) : decodeGroupE x nn = none ↔ nn ∉ [0x9E#8, 0xA1#8] := by
  simp [decodeGroupE, ite_some_eq_none]

theorem decodeGroupF_eq_none (x : RegIdx) (nn : Byte) : decodeGroupF x nn = none ↔
    nn ∉ [0x07#8, 0x0A#8, 0x15#8, 0x18#8, 0x1E#8, 0x29#8, 0x33#8, 0x55#8, 0x65#8] := by
  simp [decodeGroupF, ite_some_eq_none]

/-- Settles O6: category by category, what the tree answers is nothing just on the words of that category's line in R105. -/
theorem illegalWordsByCategory : Obligations.IllegalWordsByCategory := by
  unfold Obligations.IllegalWordsByCategory
  intro w
  rcases decodeWord_cases w with ⟨ho, hd⟩ | ⟨ho, hd⟩ | ⟨ho, hd⟩ | ⟨ho, hd⟩ | ⟨ho, hd⟩ | ⟨ho, hd⟩ | ⟨ho, hd⟩ | ⟨ho, hd⟩ |
    ⟨ho, hd⟩ | ⟨ho, hd⟩ | ⟨ho, hd⟩ | ⟨ho, hd⟩ | ⟨ho, hd⟩ | ⟨ho, hd⟩ | ⟨ho, hd⟩ | ⟨ho, hd⟩ <;>
    simp [hd, ho, decodeGroup0_eq_none, decodeGroup8_eq_none, decodeGroupE_eq_none, decodeGroupF_eq_none]

end Sys2Proof
end

-- The opcode map against the decision tree (R98, R99).
section
namespace Sys2Proof

theorem opField_and (a b : Word) : opField (a &&& b) = opField a &&& opField b := BitVec.extractLsb'_and

theorem nField_and (a b : Word) : nField (a &&& b) = nField a &&& nField b := BitVec.extractLsb'_and

theorem nnField_and (a b : Word) : nnField (a &&& b) = nnField a &&& nnField b := BitVec.extractLsb'_and

/-! The fields a word shares with a row it matches: a field is fixed where the row's mask has all its bits on. -/

theorem opField_of_matchesRow {w : Word} {row : Word × Word} (h : matchesRow w row) (hmask : opField row.2 = 0xF#4) :
    opField w = opField row.1 := by
  rw [← h, opField_and, hmask, and_ones4]

theorem nField_of_matchesRow {w : Word} {row : Word × Word} (h : matchesRow w row) (hmask : nField row.2 = 0xF#4) :
    nField w = nField row.1 := by
  rw [← h, nField_and, hmask, and_ones4]

theorem nnField_of_matchesRow {w : Word} {row : Word × Word} (h : matchesRow w row) (hmask : nnField row.2 = 0xFF#8) :
    nnField w = nnField row.1 := by
  rw [← h, nnField_and, hmask, and_ones8]

theorem eq_of_matchesRow {w : Word} {row : Word × Word} (h : matchesRow w row) (hmask : row.2 = 0xFFFF#16) : w = row.1 := by
  rw [← h, hmask]
  exact BitVec.and_allOnes.symm

/-- What a row of R98 fixes: the category, and in the five categories of R105 the field that selects, at a legal value. -/
abbrev FixesSelector (row : Word × Word) : Prop :=
  opField row.2 = 0xF#4 ∧
  (opField row.1 = 0x0#4 → row.2 = 0xFFFF#16 ∧ (row.1 = 0x00E0#16 ∨ row.1 = 0x00EE#16)) ∧
  (opField row.1 = 0x5#4 ∨ opField row.1 = 0x9#4 → nField row.2 = 0xF#4 ∧ nField row.1 = 0#4) ∧
  (opField row.1 = 0x8#4 → nField row.2 = 0xF#4 ∧ nField row.1 ∉ [0x8#4, 0x9#4, 0xA#4, 0xB#4, 0xC#4, 0xD#4, 0xF#4]) ∧
  (opField row.1 = 0xE#4 → nnField row.2 = 0xFF#8 ∧ nnField row.1 ∈ [0x9E#8, 0xA1#8]) ∧
  (opField row.1 = 0xF#4 → nnField row.2 = 0xFF#8 ∧
    nnField row.1 ∈ [0x07#8, 0x0A#8, 0x15#8, 0x18#8, 0x1E#8, 0x29#8, 0x33#8, 0x55#8, 0x65#8])

theorem opcodeMap_fixesSelector {row : Word × Word} (hrow : row ∈ opcodeMap) : FixesSelector row := by
  have hall : opcodeMap.all (fun r => FixesSelector r) = true := by decide
  exact of_decide_eq_true (List.all_eq_true.mp hall row hrow)

/-- No row matches an illegal word: the row would fix the field that makes the word illegal to a value that is not. -/
theorem decodeWord_ne_none_of_matchesRow {w : Word} {row : Word × Word} (hrow : row ∈ opcodeMap) (h : matchesRow w row) :
    decodeWord w ≠ none := by
  obtain ⟨hop, h0, h59, h8, hE, hF⟩ := opcodeMap_fixesSelector hrow
  rw [← opField_of_matchesRow h hop] at h0 h59 h8 hE hF
  intro hnone
  rcases (illegalWordsByCategory w).mp hnone with ⟨ho, hcls, hret⟩ | ⟨ho, hn⟩ | ⟨ho, hn⟩ | ⟨ho, hnn⟩ | ⟨ho, hnn⟩
  · obtain ⟨hmask, hword⟩ := h0 ho
    rw [← eq_of_matchesRow h hmask] at hword
    exact hword.elim hcls hret
  · obtain ⟨hmask, hlegal⟩ := h59 ho
    exact hn (nField_of_matchesRow h hmask ▸ hlegal)
  · obtain ⟨hmask, hlegal⟩ := h8 ho
    exact hlegal (nField_of_matchesRow h hmask ▸ hn)
  · obtain ⟨hmask, hlegal⟩ := hE ho
    exact hnn (nnField_of_matchesRow h hmask ▸ hlegal)
  · obtain ⟨hmask, hlegal⟩ := hF ho
    exact hnn (nnField_of_matchesRow h hmask ▸ hlegal)

/-- The word of every instruction matches the instruction's row, by the law of its constructor. -/
theorem encode_matches_rowOf (i : Instr) : Laws.EncodesRow.Statement i := by
  cases i with
  | cls => exact Laws.EncodesRow.cls
  | ret => exact Laws.EncodesRow.ret
  | jp nnn => exact Laws.EncodesRow.jp nnn
  | call nnn => exact Laws.EncodesRow.call nnn
  | seImm x nn => exact Laws.EncodesRow.seImm x nn
  | sneImm x nn => exact Laws.EncodesRow.sneImm x nn
  | seReg x y => exact Laws.EncodesRow.seReg x y
  | ldImm x nn => exact Laws.EncodesRow.ldImm x nn
  | addImm x nn => exact Laws.EncodesRow.addImm x nn
  | ldReg x y => exact Laws.EncodesRow.ldReg x y
  | orReg x y => exact Laws.EncodesRow.orReg x y
  | andReg x y => exact Laws.EncodesRow.andReg x y
  | xorReg x y => exact Laws.EncodesRow.xorReg x y
  | addReg x y => exact Laws.EncodesRow.addReg x y
  | subReg x y => exact Laws.EncodesRow.subReg x y
  | shr x y => exact Laws.EncodesRow.shr x y
  | subnReg x y => exact Laws.EncodesRow.subnReg x y
  | shl x y => exact Laws.EncodesRow.shl x y
  | sneReg x y => exact Laws.EncodesRow.sneReg x y
  | ldI nnn => exact Laws.EncodesRow.ldI nnn
  | jpV0 nnn => exact Laws.EncodesRow.jpV0 nnn
  | rnd x nn => exact Laws.EncodesRow.rnd x nn
  | drw x y n => exact Laws.EncodesRow.drw x y n
  | skp x => exact Laws.EncodesRow.skp x
  | sknp x => exact Laws.EncodesRow.sknp x
  | ldVxDt x => exact Laws.EncodesRow.ldVxDt x
  | ldVxK x => exact Laws.EncodesRow.ldVxK x
  | ldDtVx x => exact Laws.EncodesRow.ldDtVx x
  | ldStVx x => exact Laws.EncodesRow.ldStVx x
  | addI x => exact Laws.EncodesRow.addI x
  | ldF x => exact Laws.EncodesRow.ldF x
  | ldB x => exact Laws.EncodesRow.ldB x
  | ldMemRegs x => exact Laws.EncodesRow.ldMemRegs x
  | ldRegsMem x => exact Laws.EncodesRow.ldRegsMem x

/-- Settles O4: a word that decodes is the word of its instruction, which matches the instruction's row; a word that decodes to
nothing is illegal by category, and no row matches it. -/
theorem decodesIffMatchesRow : Obligations.DecodesIffMatchesRow := by
  unfold Obligations.DecodesIffMatchesRow
  intro w
  have hrow : ∀ i, decodeWord w = some i → ∃ row, opcodeMap[rowOf i]? = some row ∧ matchesRow w row := by
    intro i hi
    obtain ⟨-, hw⟩ := isWordOf_of_decodeWord hi
    exact hw ▸ encode_matches_rowOf i
  refine ⟨⟨?legal, ?matched⟩, hrow⟩
  case legal =>
    rintro ⟨i, hi⟩
    obtain ⟨row, hget, hm⟩ := hrow i hi
    exact ⟨row, List.mem_of_getElem? hget, hm⟩
  case matched =>
    rintro ⟨row, hmem, hm⟩
    exact Option.ne_none_iff_exists'.mp (decodeWord_ne_none_of_matchesRow hmem hm)

/-- Two different rows of R98 ask for different bits under the mask they share. -/
theorem opcodeMap_rows_disjoint : ∀ j < opcodeMap.length, ∀ k < opcodeMap.length,
    (opcodeMap.getD j default).1 &&& (opcodeMap.getD k default).2 =
      (opcodeMap.getD k default).1 &&& (opcodeMap.getD j default).2 → j = k := by
  decide

/-- Settles O5: a word that matches two rows gives them the same bits under the mask they share. -/
theorem noWordMatchesTwoRows : Obligations.NoWordMatchesTwoRows := by
  unfold Obligations.NoWordMatchesTwoRows
  intro w j k a b hj hk ha hb
  obtain ⟨hjlt, hja⟩ := List.getElem?_eq_some_iff.mp hj
  obtain ⟨hklt, hkb⟩ := List.getElem?_eq_some_iff.mp hk
  have hshared : a.1 &&& b.2 = b.1 &&& a.2 := by
    rw [← ha, ← hb, BitVec.and_assoc, BitVec.and_assoc, BitVec.and_comm a.2]
  apply opcodeMap_rows_disjoint j hjlt k hklt
  simpa [hj, hk] using hshared

/-- Settles O1: the nine words, read by the tree. -/
theorem sampleWordsDecode : Obligations.SampleWordsDecode := by
  unfold Obligations.SampleWordsDecode
  decide

end Sys2Proof
end

-- Everything an instruction that answers a next state can have done, said once for all 34.
section
namespace Sys2Proof.Machine

/-- The faults an instruction raises in the state `s`, with what each records (R240 to R246). -/
inductive Raises (s : State) : Instr → FaultKind → Prop where
  | stackFull (nnn : Addr) (hfull : s.sp.toNat = 16) : Raises s (.call nnn) .stackFull
  | stackEmpty (hempty : s.sp.toNat = 0) : Raises s .ret .stackEmpty
  | skpKey (x : RegIdx) (hkey : (s.reg x).toNat > 15) : Raises s (.skp x) (.outOfBounds (s.reg x).toNat)
  | sknpKey (x : RegIdx) (hkey : (s.reg x).toNat > 15) : Raises s (.sknp x) (.outOfBounds (s.reg x).toNat)
  | drwRows (x y : RegIdx) (n : Nat) (hout : inMemory s.address n = false) :
      Raises s (.drw x y n) (.outOfBounds (max s.address 4096))
  | ldBDigits (x : RegIdx) (hout : inMemory s.address 3 = false) : Raises s (.ldB x) (.outOfBounds (max s.address 4096))
  | ldMemRegsRange (x : RegIdx) (hout : inMemory s.address (x.toNat + 1) = false) :
      Raises s (.ldMemRegs x) (.outOfBounds (max s.address 4096))
  | ldRegsMemRange (x : RegIdx) (hout : inMemory s.address (x.toNat + 1) = false) :
      Raises s (.ldRegsMem x) (.outOfBounds (max s.address 4096))

/-- The ways an instruction completes without a fault, by what it writes. What a value is made of is left out; who may write
and the bounds of what is written are in. -/
inductive Completes (s : State) : Instr → State → Prop where
  | cleared : Completes s .cls { s with fb := Framebuffer.clear }.advance
  | drew (x y : RegIdx) (n : Nat) (fb : Framebuffer) (c : Bool) :
      Completes s (.drw x y n) ({ s with fb := fb }.setFlag c).advance
  | returned (hslot : s.sp.toNat - 1 < 16) (hdepth : s.sp.toNat ≠ 0) :
      Completes s .ret { s with sp := s.sp - 1#8, pc := s.stack[s.sp.toNat - 1] }
  | called (nnn : Addr) (hfree : s.sp.toNat < 16) :
      Completes s (.call nnn) { s with
        stack := s.stack.set s.sp.toNat (s.pc + 2#16) hfree, sp := s.sp + 1#8, pc := addrOperand nnn }
  | jumped {i : Instr} (a : Word) (hbound : a.toNat ≤ 0x10FE) : Completes s i (s.jump a)
  | skipped {i : Instr} (c : Bool) : Completes s i (s.skipIf c)
  | waited {i : Instr} : Completes s i s
  | wroteReg {i : Instr} (x : RegIdx) (b : Byte) (hx : writesReg i x = true) : Completes s i (s.setReg x b).advance
  | wroteRegAndFlag {i : Instr} (x : RegIdx) (b : Byte) (c : Bool) (hx : writesReg i x = true)
      (hflag : writesReg i VF = true) : Completes s i (s.writeResultThenFlag x b c)
  | loadedRegs (x : RegIdx) (bs : List Byte) (hlen : bs.length = x.toNat + 1) :
      Completes s (.ldRegsMem x) { s with v := loadRegs s.v 0 bs }.advance
  | wroteI {i : Instr} (a : Word) (hi : ∃ nnn x, i = .ldI nnn ∨ i = .addI x ∨ i = .ldF x) :
      Completes s i (s.setI a).advance
  | stored {i : Instr} (bs : List Byte) (hi : ∃ x, i = .ldB x ∨ i = .ldMemRegs x)
      (hin : s.address + bs.length ≤ 4096) :
      Completes s i { s with mem := Memory.writeBytes s.mem s.address bs }.advance
  | wroteDelay (x : RegIdx) (b : Byte) : Completes s (.ldDtVx x) (s.setDt b).advance
  | wroteSound (x : RegIdx) (b : Byte) : Completes s (.ldStVx x) (s.setSt b).advance

/-- The target of JP V0 over the naturals: the sum is below 65536, so the word does not wrap (R158). -/
theorem jpV0_target_toNat (s : State) (nnn : Addr) :
    (addrOperand nnn + s.regWord 0#4).toNat = nnn.toNat + (s.reg 0#4).toNat := by
  have hnnn := nnn.isLt
  have hreg := (s.reg 0#4).isLt
  rw [BitVec.toNat_add, addrOperand_toNat, State.regWord, BitVec.toNat_setWidth]
  omega

/-- Everything an instruction that answers a next state can have done: taken a fault, the record being all that changed, or
completed. -/
theorem exec_next_cases {i : Instr} {s t : State} (h : exec i s = .next t) :
    (∃ k, Raises s i k ∧ t = { s with fault := some k }) ∨ Completes s i t := by
  have hanswer : ∀ {u : State}, exec i s = .next u → u = t := fun e => Host.Outcome.next.inj (e.symm.trans h)
  cases i with
  | cls => exact .inr (hanswer rfl ▸ .cleared)
  | ret =>
    rcases execRet_next s t h with ⟨hempty, rfl⟩ | ⟨hslot, hdepth, rfl⟩
    · exact .inl ⟨_, .stackEmpty hempty, rfl⟩
    · exact .inr (.returned hslot hdepth)
  | jp nnn =>
    have hnnn := nnn.isLt
    exact .inr (hanswer rfl ▸ .jumped _ (by rw [addrOperand_toNat]; omega))
  | call nnn =>
    rcases execCall_next nnn s t h with ⟨hfull, rfl⟩ | ⟨hfree, rfl⟩
    · exact .inl ⟨_, .stackFull nnn hfull, rfl⟩
    · exact .inr (.called nnn hfree)
  | seImm x nn | sneImm x nn | seReg x y | sneReg x y => exact .inr (hanswer rfl ▸ .skipped _)
  | jpV0 nnn =>
    have hnnn := nnn.isLt
    have hreg := (s.reg 0#4).isLt
    exact .inr (hanswer rfl ▸ .jumped _ (by rw [jpV0_target_toNat]; omega))
  | ldImm x nn | addImm x nn | rnd x nn | ldReg x y | orReg x y | andReg x y | xorReg x y | ldVxDt x =>
    exact .inr (hanswer rfl ▸ .wroteReg x _ (by simp [writesReg]))
  | addReg x y | subReg x y | shr x y | subnReg x y | shl x y =>
    exact .inr (hanswer rfl ▸ .wroteRegAndFlag x _ _ (by simp [writesReg]) (by simp [writesReg]))
  | ldI nnn => exact .inr (hanswer rfl ▸ .wroteI _ ⟨nnn, 0#4, .inl rfl⟩)
  | addI x => exact .inr (hanswer rfl ▸ .wroteI _ ⟨0#12, x, .inr (.inl rfl)⟩)
  | ldF x => exact .inr (hanswer rfl ▸ .wroteI _ ⟨0#12, x, .inr (.inr rfl)⟩)
  | drw x y n =>
    rcases execDrw_cases x y n s with ⟨hout, e⟩ | ⟨-, d, -, e⟩
    · exact .inl ⟨_, .drwRows x y n hout, (hanswer e).symm⟩
    · exact .inr (hanswer e ▸ .drew x y n d.1 d.2)
  | skp x =>
    rcases execSkp_cases x s with ⟨hkey, e⟩ | ⟨-, e⟩
    · exact .inl ⟨_, .skpKey x hkey, (hanswer e).symm⟩
    · exact .inr (hanswer e ▸ .skipped _)
  | sknp x =>
    rcases execSknp_cases x s with ⟨hkey, e⟩ | ⟨-, e⟩
    · exact .inl ⟨_, .sknpKey x hkey, (hanswer e).symm⟩
    · exact .inr (hanswer e ▸ .skipped _)
  | ldVxK x =>
    rcases execLdVxK_cases x s with ⟨-, e⟩ | ⟨k, -, e⟩
    · exact .inr (hanswer e ▸ .waited)
    · exact .inr (hanswer e ▸ .wroteReg x _ (by simp [writesReg]))
  | ldDtVx x => exact .inr (hanswer rfl ▸ .wroteDelay x _)
  | ldStVx x => exact .inr (hanswer rfl ▸ .wroteSound x _)
  | ldB x =>
    rcases execLdB_cases x s with ⟨hout, e⟩ | ⟨hin, e⟩
    · exact .inl ⟨_, .ldBDigits x hout, (hanswer e).symm⟩
    · have hrange := ((inMemory_iff _ _).mp hin).resolve_left (by omega)
      exact .inr (hanswer e ▸ .stored _ ⟨x, .inl rfl⟩ hrange)
  | ldMemRegs x =>
    rcases execLdMemRegs_cases x s with ⟨hout, e⟩ | ⟨hin, e⟩
    · exact .inl ⟨_, .ldMemRegsRange x hout, (hanswer e).symm⟩
    · have hrange := ((inMemory_iff _ _).mp hin).resolve_left (by omega)
      exact .inr (hanswer e ▸ .stored _ ⟨x, .inr rfl⟩ (by rw [State.regsUpTo_length]; exact hrange))
  | ldRegsMem x =>
    rcases execLdRegsMem_cases x s with ⟨hout, e⟩ | ⟨-, e⟩
    · exact .inl ⟨_, .ldRegsMemRange x hout, (hanswer e).symm⟩
    · exact .inr (hanswer e ▸ .loadedRegs x _ (Memory.readBytes_length _ _ _))

end Sys2Proof.Machine
end

-- The two invariants every step keeps: memory's canonical form, and the bounds on the stack and pc (R27, R34, R296).
section
namespace Sys2Proof.Machine

/-- An instruction that completes keeps memory canonical: only a checked store writes it. -/
theorem Completes.memOk {s t : State} {i : Instr} (h : Completes s i t) (hs : s.MemOk) : t.MemOk := by
  cases h with
  | stored bs hi hin => exact Memory.wf_writeBytes bs s.mem s.address hin hs
  | _ => exact hs

/-- Settles O14: the ticks and a fault leave memory alone, and an instruction that completes keeps it canonical. -/
theorem stepKeepsMemoryCanonical : Obligations.StepKeepsMemoryCanonical := by
  unfold Obligations.StepKeepsMemoryCanonical
  intro s t hs hstep
  have hbegin : s.beginStep.MemOk := hs
  rcases step_next s t hstep with ⟨-, ⟨i, rest, -, hexec⟩ | ⟨w, -, rfl⟩⟩
  · rcases exec_next_cases hexec with ⟨k, -, rfl⟩ | hdone
    · exact hbegin
    · exact hdone.memOk hbegin
  · exact hbegin

/-- The bounds depend on the stack pointer, the stack and `pc` alone; with the first two kept, a bound on `pc` is enough. -/
theorem State.Bounded.of_stack_eq {s t : State} (hs : s.Bounded) (hsp : t.sp = s.sp) (hstack : t.stack = s.stack)
    (hpc : t.pc.toNat ≤ 0x10FE) : t.Bounded := by
  obtain ⟨hdepth, hslots, -⟩ := hs
  exact ⟨hsp ▸ hdepth, hstack ▸ hslots, hpc⟩

/-- The fetch address is at most 4094, so `pc + 2` and `pc + 4` do not wrap. -/
theorem pc_add_toNat {a d : Word} (ha : a.toNat ≤ 4094) (hd : d.toNat ≤ 4) : (a + d).toNat = a.toNat + d.toNat := by
  rw [BitVec.toNat_add]
  omega

/-- An instruction that completes at a `pc` a step exists for keeps the bounds. -/
theorem Completes.bounded {s t : State} {i : Instr} (h : Completes s i t) (hs : s.Bounded) (hfetch : s.pc.toNat ≤ 4094) :
    t.Bounded := by
  have hnext : (s.pc + 2#16).toNat ≤ 4096 := by rw [pc_add_toNat hfetch (by decide)]; exact Nat.add_le_add_right hfetch 2
  cases h with
  | returned hslot hdepth =>
    obtain ⟨hsp, hslots, -⟩ := hs
    refine ⟨?depth, hslots, (hslots ⟨_, hslot⟩).trans (by decide)⟩
    case depth =>
      change (s.sp - 1#8).toNat ≤ 16
      rw [BitVec.toNat_sub, BitVec.toNat_ofNat]
      omega
  | called nnn hfree =>
    obtain ⟨-, hslots, -⟩ := hs
    have hnnn := nnn.isLt
    refine ⟨?depth, fun k => ?slots, ?target⟩
    case depth =>
      change (s.sp + 1#8).toNat ≤ 16
      rw [BitVec.toNat_add, BitVec.toNat_ofNat]
      omega
    case slots =>
      change ((s.stack.set s.sp.toNat (s.pc + 2#16) hfree)[k.val]).toNat ≤ 4096
      rw [Vector.getElem_set]
      split
      · exact hnext
      · exact hslots k
    case target =>
      change (addrOperand nnn).toNat ≤ 0x10FE
      rw [addrOperand_toNat]
      omega
  | jumped a hbound => exact hs.of_stack_eq rfl rfl hbound
  | skipped c =>
    have hd : (if c then 4#16 else 2#16).toNat ≤ 4 := by cases c <;> decide
    exact hs.of_stack_eq rfl rfl (by rw [State.skipIf_pc, pc_add_toNat hfetch hd]; omega)
  | waited => exact hs
  | _ => exact hs.of_stack_eq rfl rfl (hnext.trans (by decide))

/-- Settles O15: the ticks and a fault touch none of the three, and an instruction that completes keeps the bounds. -/
theorem stepKeepsBounds : Obligations.StepKeepsBounds := by
  unfold Obligations.StepKeepsBounds
  intro s t hs hstep
  have hbegin : s.beginStep.Bounded := hs
  rcases step_next s t hstep with ⟨⟨-, -, hfetch⟩, ⟨i, rest, -, hexec⟩ | ⟨w, -, rfl⟩⟩
  · rcases exec_next_cases hexec with ⟨k, -, rfl⟩ | hdone
    · exact hbegin
    · exact hdone.bounded hbegin hfetch
  · exact hbegin

/-- Settles O13: every field the two invariants read is 0 or empty at reset. -/
theorem resetMeetsInvariants : Obligations.ResetMeetsInvariants := by
  unfold Obligations.ResetMeetsInvariants
  refine ⟨⟨by decide, fun k => ?slots, by decide⟩, reset_mem_wf⟩
  case slots => simp [State.reset]

end Sys2Proof.Machine
end

-- Faults: precise, raised only where listed, and the only way besides completion (R246, R250, R253).
section
namespace Sys2Proof.Machine

/-- An instruction that completes does not touch the fault record. -/
theorem Completes.fault {s t : State} {i : Instr} (h : Completes s i t) : t.fault = s.fault := by
  cases h <;> rfl

/-- Settles O10: an instruction that completes leaves the record, and a fault changes the record alone. -/
theorem faultsArePrecise : Obligations.FaultsArePrecise := by
  unfold Obligations.FaultsArePrecise
  intro i s t hexec hchanged
  rcases exec_next_cases hexec with ⟨k, -, rfl⟩ | hdone
  · rfl
  · exact absurd hdone.fault hchanged

/-- A range that is not inside memory has rows, and the last one lies above 4095. -/
theorem outside_of_inMemory_eq_false {a n : Nat} (h : inMemory a n = false) : n > 0 ∧ a + n - 1 > 4095 := by
  have hnot : ¬ (n = 0 ∨ a + n ≤ 4096) := fun hin => by simp [(inMemory_iff a n).mpr hin] at h
  omega

/-- Settles O11: the record comes from a fault the instruction raised, and each of those is one line of the list. -/
theorem faultsOnlyWhereListed : Obligations.FaultsOnlyWhereListed := by
  unfold Obligations.FaultsOnlyWhereListed
  intro i s t k hnone hexec hrecord
  rcases exec_next_cases hexec with ⟨j, hraises, rfl⟩ | hdone
  · obtain rfl : j = k := Option.some.inj hrecord
    cases hraises with
    | stackFull nnn hfull => exact .inl ⟨rfl, hfull, nnn, rfl⟩
    | stackEmpty hempty => exact .inr (.inl ⟨rfl, hempty, rfl⟩)
    | skpKey x hkey => exact .inr (.inr (.inl ⟨x, .inl rfl, hkey, rfl⟩))
    | sknpKey x hkey => exact .inr (.inr (.inl ⟨x, .inr rfl, hkey, rfl⟩))
    | drwRows x y n hout =>
      exact .inr (.inr (.inr ⟨rfl, .inl ⟨x, y, n, rfl, outside_of_inMemory_eq_false hout⟩⟩))
    | ldBDigits x hout =>
      exact .inr (.inr (.inr ⟨rfl, .inr (.inl ⟨x, rfl, (outside_of_inMemory_eq_false hout).2⟩)⟩))
    | ldMemRegsRange x hout =>
      exact .inr (.inr (.inr ⟨rfl, .inr (.inr ⟨x, .inl rfl, (outside_of_inMemory_eq_false hout).2⟩)⟩))
    | ldRegsMemRange x hout =>
      exact .inr (.inr (.inr ⟨rfl, .inr (.inr ⟨x, .inr rfl, (outside_of_inMemory_eq_false hout).2⟩)⟩))
  · rw [hdone.fault, hnone] at hrecord
    cases hrecord

/-- The answer of RET on a stack that is not empty: the top slot in `pc`, the slot kept (R151). -/
theorem exec_ret_of_pos {s : State} (hslot : s.sp.toNat - 1 < 16) (hdepth : s.sp.toNat ≠ 0) :
    exec .ret s = .next { s with sp := s.sp - 1#8, pc := s.stack[s.sp.toNat - 1] } := by
  change execRet s = _
  rw [execRet, State.pop_ok s hdepth hslot]
  rfl

/-- The answer of CALL with a free slot: the address after it pushed, the immediate in `pc` (R153). -/
theorem exec_call_of_free {s : State} (nnn : Addr) (hfree : s.sp.toNat < 16) :
    exec (.call nnn) s = .next { s with
      stack := s.stack.set s.sp.toNat (s.pc + 2#16) hfree, sp := s.sp + 1#8, pc := addrOperand nnn } := by
  change execCall nnn s = _
  rw [execCall, State.push_ok s _ hfree]
  rfl

/-- Settles O12: only the stack can stop an instruction, and at a depth from 0 to 16 it answers or raises its fault. -/
theorem everyInstructionAnswersNext : Obligations.EveryInstructionAnswersNext := by
  unfold Obligations.EveryInstructionAnswersNext
  intro i s hsp
  cases i with
  | ret =>
    by_cases hdepth : s.sp.toNat = 0
    · exact ⟨_, exec_ret_of_pop_raised (State.pop_empty s hdepth)⟩
    · exact ⟨_, exec_ret_of_pos (by omega) hdepth⟩
  | call nnn =>
    rcases hsp.lt_or_eq with hfree | hfull
    · exact ⟨_, exec_call_of_free nnn hfree⟩
    · exact ⟨_, exec_call_of_push_raised nnn (State.push_full s _ hfull)⟩
  | drw x y n => rcases execDrw_cases x y n s with ⟨-, e⟩ | ⟨-, d, -, e⟩ <;> exact ⟨_, e⟩
  | skp x => rcases execSkp_cases x s with ⟨-, e⟩ | ⟨-, e⟩ <;> exact ⟨_, e⟩
  | sknp x => rcases execSknp_cases x s with ⟨-, e⟩ | ⟨-, e⟩ <;> exact ⟨_, e⟩
  | ldB x => rcases execLdB_cases x s with ⟨-, e⟩ | ⟨-, e⟩ <;> exact ⟨_, e⟩
  | ldMemRegs x => rcases execLdMemRegs_cases x s with ⟨-, e⟩ | ⟨-, e⟩ <;> exact ⟨_, e⟩
  | ldRegsMem x => rcases execLdRegsMem_cases x s with ⟨-, e⟩ | ⟨-, e⟩ <;> exact ⟨_, e⟩
  | _ => exact ⟨_, rfl⟩

end Sys2Proof.Machine
end

-- Who writes what: the frames of the 34 instructions (spec/10_state.md sections 1 and 2).
section
namespace Sys2Proof.Machine

/-- What an instruction that completes leaves as it was, unless it is one of the instructions listed for the field. -/
theorem Completes.unchanged {s t : State} {i : Instr} (h : Completes s i t) :
    t.run = s.run ∧ t.draws = s.draws ∧
    (t.sp = s.sp ∨ i = .ret ∨ ∃ nnn, i = .call nnn) ∧ (t.stack = s.stack ∨ ∃ nnn, i = .call nnn) ∧
    (t.dt = s.dt ∨ ∃ x, i = .ldDtVx x) ∧ (t.st = s.st ∨ ∃ x, i = .ldStVx x) ∧
    (t.iReg = s.iReg ∨ ∃ nnn x, i = .ldI nnn ∨ i = .addI x ∨ i = .ldF x) ∧
    (t.mem = s.mem ∨ ∃ x, i = .ldB x ∨ i = .ldMemRegs x) ∧ (t.fb = s.fb ∨ i = .cls ∨ ∃ x y n, i = .drw x y n) := by
  cases h with
  | wroteI a hi =>
    exact ⟨rfl, rfl, .inl rfl, .inl rfl, .inl rfl, .inl rfl, .inr hi, .inl rfl, .inl rfl⟩
  | stored bs hi hin =>
    exact ⟨rfl, rfl, .inl rfl, .inl rfl, .inl rfl, .inl rfl, .inl rfl, .inr hi, .inl rfl⟩
  | _ => simp

/-- Settles O16: a fault touches none of these fields, and an instruction that completes only those it is listed for. -/
theorem stateWrittenOnlyByItsInstructions : Obligations.StateWrittenOnlyByItsInstructions := by
  unfold Obligations.StateWrittenOnlyByItsInstructions
  intro i s t hexec
  rcases exec_next_cases hexec with ⟨k, -, rfl⟩ | hdone
  · simp
  · obtain ⟨hrun, hdraws, hsp, hstack, hdt, hst, hi, hmem, hfb⟩ := hdone.unchanged
    exact ⟨hrun, hdraws, hsp.resolve_left, hstack.resolve_left, hdt.resolve_left, hst.resolve_left, hi.resolve_left,
      fun a ha => hmem.resolve_left fun e => ha (by rw [e]), hfb.resolve_left⟩

/-- Settles O17: of the ways to complete, four write registers, each within what the instruction is listed for; the others
keep `V`. -/
theorem registersWrittenOnlyWhereListed : Obligations.RegistersWrittenOnlyWhereListed := by
  unfold Obligations.RegistersWrittenOnlyWhereListed
  intro i s t k hexec hchanged
  rcases exec_next_cases hexec with ⟨j, -, rfl⟩ | hdone
  · exact absurd rfl hchanged
  · cases hdone with
    | drew x y n fb c =>
      by_contra hnot
      have hk : k ≠ VF := by simpa [writesReg] using hnot
      rw [State.reg_advance, State.reg_setFlag, if_neg hk] at hchanged
      exact hchanged rfl
    | wroteReg x b hx =>
      by_contra hnot
      have hk : k ≠ x := fun e => hnot (e ▸ hx)
      exact hchanged (s.reg_setReg_advance_of_ne b hk)
    | wroteRegAndFlag x b c hx hflag =>
      by_contra hnot
      have hk : k ≠ x := fun e => hnot (e ▸ hx)
      have hkF : k ≠ VF := fun e => hnot (e ▸ hflag)
      rw [State.reg_writeResultThenFlag, if_neg hkF, if_neg hk] at hchanged
      exact hchanged rfl
    | loadedRegs x bs hlen =>
      by_contra hnot
      have hk : ¬ k.toNat ≤ x.toNat := by simpa [writesReg] using hnot
      apply hchanged
      change (loadRegs s.v 0 bs)[k.toNat]'k.isLt = s.v[k.toNat]'k.isLt
      rw [loadRegs_getElem, dif_neg (by omega)]
    | _ => exact absurd rfl hchanged

end Sys2Proof.Machine
end

-- Ticks, and the timers over a step (R231, R258, R259).
section
namespace Sys2Proof.Machine

/-- Settles O18: one timer's count is `countDown_toNat`, the frame is that of `State.tick`. -/
theorem tickCountsDown : Obligations.TickCountsDown := by
  unfold Obligations.TickCountsDown
  exact fun s => ⟨countDown_toNat s.dt, countDown_toNat s.st, rfl⟩

theorem countDownBy_zero (b : Byte) : countDownBy 0 b = b :=
  BitVec.eq_of_toNat_eq (countDownBy_toNat 0 b)

/-- One more tick of a timer; a timer that rests at 0 rests (D23). -/
theorem countDownBy_succ (n : Nat) (b : Byte) : countDownBy (n + 1) b = countDown (countDownBy n b) := by
  apply BitVec.eq_of_toNat_eq
  rw [countDown_toNat, countDownBy_toNat, countDownBy_toNat]
  omega

theorem State.ticks_zero (s : State) : s.ticks 0 = s := by
  rw [State.ticks, countDownBy_zero, countDownBy_zero]

theorem State.ticks_succ (n : Nat) (s : State) : s.ticks (n + 1) = (s.ticks n).tick := by
  rw [State.ticks, countDownBy_succ, countDownBy_succ]
  rfl

/-- Settles O19, by induction on the number of ticks. -/
theorem ticksAreRepeatedTick : Obligations.TicksAreRepeatedTick := by
  unfold Obligations.TicksAreRepeatedTick
  intro n s
  induction n with
  | zero => exact s.ticks_zero
  | succ n ih => rw [State.ticks_succ, ih, Function.iterate_succ_apply']

/-- Before the CPU acts a timer has only counted down. -/
theorem countDownBy_le (n : Nat) (b : Byte) : (countDownBy n b).toNat ≤ b.toNat := by
  rw [countDownBy_toNat]
  omega

/-- Settles O20: the ticks before the CPU acts only count down, and by O16 the instruction executed writes a timer only where it
is listed for it. -/
theorem timersRiseOnlyWhenWritten : Obligations.TimersRiseOnlyWhenWritten := by
  unfold Obligations.TimersRiseOnlyWhenWritten
  intro s t hstep
  have hdelay := countDownBy_le (Config.ticksBefore s.draws) s.dt
  have hsound := countDownBy_le (Config.ticksBefore s.draws) s.st
  rcases step_next s t hstep with ⟨-, ⟨i, rest, hdecode, hexec⟩ | ⟨w, -, rfl⟩⟩
  · obtain ⟨-, -, -, -, hdt, hst, -⟩ := stateWrittenOnlyByItsInstructions i s.beginStep t hexec
    constructor
    · intro hother
      have hkept : t.dt = s.beginStep.dt := by
        by_contra hne
        obtain ⟨x, rfl⟩ := hdt hne
        exact hother x rest hdecode
      rwa [hkept]
    · intro hother
      have hkept : t.st = s.beginStep.st := by
        by_contra hne
        obtain ⟨x, rfl⟩ := hst hne
        exact hother x rest hdecode
      rwa [hkept]
  · exact ⟨fun _ => hdelay, fun _ => hsound⟩

end Sys2Proof.Machine
end

-- One step: when it exists, and what it does with the bytes at pc (R120, R121, R125, R223).
section
namespace Sys2Proof.Machine

/-- A step exists just where the model names no reason against it. -/
theorem State.noStep_eq_none_iff_steps (s : State) : s.noStep = none ↔ s.Steps := s.noStep_eq_none

/-- A step where none exists answers the reason. -/
theorem step_of_noStep {s : State} {f : Fault} (h : s.noStep = some f) : step s = .fault f := by
  rw [step, h]

/-- A step at an instruction runs its meaning in the state the CPU acts in. -/
theorem step_of_decode {s : State} {i : Instr} {rest : List Byte} (hs : s.Steps)
    (hdecode : decode s.fetchBytes = .ok (i, rest)) : step s = exec i s.beginStep := by
  rw [step, s.noStep_eq_none_iff_steps.mpr hs, hdecode]

/-- A step at an illegal word records it (R241). -/
theorem step_of_illegal {s : State} {w : Word} (hs : s.Steps)
    (hdecode : decode s.fetchBytes = .error (.illegalInstruction w)) :
    step s = .next { s.beginStep with fault := some (.illegalInstruction w) } := by
  rw [step, s.noStep_eq_none_iff_steps.mpr hs, hdecode]
  rfl

/-- Settles O7: the step is `step_of_decode`, and the state the CPU acts in is its own definition. -/
theorem stepRunsDecodedInstruction : Obligations.StepRunsDecodedInstruction := by
  unfold Obligations.StepRunsDecodedInstruction
  exact fun s i rest hs hdecode => ⟨step_of_decode hs hdecode, rfl⟩

/-- The word a step fetches, high byte first (R62). -/
def State.fetchWord (s : State) : Word := Memory.read s.mem s.pc.toNat ++ Memory.read s.mem (s.pc.toNat + 1)

/-- The bytes at `pc` decode as the word fetched does. -/
theorem State.decode_fetchBytes (s : State) : decode s.fetchBytes =
    match decodeWord s.fetchWord with
    | some i => .ok (i, [])
    | none => .error (.illegalInstruction s.fetchWord) := by
  change decode [_, _] = _
  rw [decode]
  rfl

/-- Settles O8: no step is a named reason; a step follows what the fetched word decodes to. -/
theorem stepFetchesDecodesExecutes : Obligations.StepFetchesDecodesExecutes := by
  unfold Obligations.StepFetchesDecodesExecutes
  intro s
  change (¬ s.Steps → ∃ f, step s = .fault f) ∧ (s.Steps →
    match decodeWord s.fetchWord with
    | some i => step s = exec i s.beginStep
    | none => step s = .next { s.beginStep with fault := some (.illegalInstruction s.fetchWord) })
  have hfetch := s.decode_fetchBytes
  constructor
  · intro hnot
    obtain ⟨f, hf⟩ := Option.ne_none_iff_exists'.mp (mt s.noStep_eq_none_iff_steps.mp hnot)
    exact ⟨f, step_of_noStep hf⟩
  · intro hs
    cases hword : decodeWord s.fetchWord with
    | some i => exact step_of_decode hs (by rw [hfetch, hword])
    | none => exact step_of_illegal hs (by rw [hfetch, hword])

/-- Settles O9: the reason the model names in each of the three kinds of state without a step. -/
theorem noStepWhereSpecGivesNone : Obligations.NoStepWhereSpecGivesNone := by
  unfold Obligations.NoStepWhereSpecGivesNone
  intro s
  refine ⟨fun hrun => ?notLoaded, fun hrun hfault => ?faulted, fun hrun hfault hpc => ⟨?stopped, ?output⟩⟩
  case notLoaded => exact step_of_noStep (by simp [State.noStep, hrun])
  case faulted => exact step_of_noStep (by simp [State.noStep, hrun, hfault])
  case stopped => exact step_of_noStep (by simp [State.noStep, State.hasMore, hrun, hfault, hpc])
  case output => simp [State.stopped, State.hasMore, hrun, hfault, hpc]

/-- The output `waiting_for_key` is raised only in a step at a key wait. -/
theorem State.waitingForKey_of_true {s : State} (h : s.waitingForKey = true) :
    s.Steps ∧ ∃ x rest, decode s.fetchBytes = .ok (.ldVxK x, rest) := by
  unfold State.waitingForKey at h
  split at h
  case h_1 x rest hstep hdecode => exact ⟨s.noStep_eq_none_iff_steps.mp hstep, x, rest, hdecode⟩
  case h_2 => cases h

/-- In a step at a key wait the output says that no event is present. -/
theorem State.waitingForKey_at_keyWait {s : State} {x : RegIdx} {rest : List Byte} (hs : s.Steps)
    (hdecode : decode s.fetchBytes = .ok (.ldVxK x, rest)) :
    s.waitingForKey = (Config.keyEvent (s.draws + 1)).isNone := by
  rw [State.waitingForKey, s.noStep_eq_none_iff_steps.mpr hs, hdecode]
  rfl

/-- A key wait without an event leaves the state as it is (R223). -/
theorem exec_ldVxK_of_none {s : State} (x : RegIdx) (h : Config.keyEvent s.draws = none) :
    exec (.ldVxK x) s = .next s := by
  rcases execLdVxK_cases x s with ⟨-, e⟩ | ⟨k, hk, -⟩
  · exact e
  · cases h.symm.trans hk

/-- Settles O57: at a key wait the output is the absence of an event, and then the step ends where the CPU began; elsewhere the
output is not raised. -/
theorem waitingOutputDuringKeyWait : Obligations.WaitingOutputDuringKeyWait := by
  unfold Obligations.WaitingOutputDuringKeyWait
  intro s
  refine ⟨fun x rest hs hdecode => ?keyWait, fun hnot => ?noStep, fun hother => ?other⟩
  case keyWait =>
    have houtput := State.waitingForKey_at_keyWait hs hdecode
    refine ⟨houtput, fun hwaiting => ⟨s.beginStep, ?_, rfl⟩⟩
    have hnone : Config.keyEvent s.beginStep.draws = none := Option.isNone_iff_eq_none.mp (houtput ▸ hwaiting)
    rw [step_of_decode hs hdecode, exec_ldVxK_of_none x hnone]
  case noStep => exact Bool.eq_false_iff.mpr fun hwaiting => hnot (State.waitingForKey_of_true hwaiting).1
  case other =>
    refine Bool.eq_false_iff.mpr fun hwaiting => ?_
    obtain ⟨-, x, rest, hdecode⟩ := State.waitingForKey_of_true hwaiting
    exact hother x rest hdecode

/-- An address below 4096 has category 0 and is its own 12-bit field. -/
theorem eq_nnn_of_lt {a : Word} (ha : a.toNat < 4096) : a = 0x0#4 ++ nnnField a := by
  have hop : opField a = 0x0#4 := by
    apply BitVec.eq_of_toNat_eq
    rw [opField, BitVec.extractLsb'_toNat, Nat.shiftRight_eq_div_pow, Nat.div_eq_of_lt ha]
    rfl
  rw [← hop, fields_nnn]

/-- The word of a jump to an address below 4096, as R125 writes it: the category's bit set in the address. -/
theorem jumpWord_eq {a : Word} (ha : a.toNat < 4096) : 0x1000#16 ||| a = 0x1#4 ++ nnnField a := by
  calc 0x1000#16 ||| a = (0x1#4 ++ 0#12) ||| (0x0#4 ++ nnnField a) := by rw [← eq_nnn_of_lt ha]; rfl
    _ = 0x1#4 ++ nnnField a := by rw [BitVec.or_append]; simp

/-- The 12-bit field of an address below 4096, used as an address, is the address. -/
theorem addrOperand_nnnField {a : Word} (ha : a.toNat < 4096) : addrOperand (nnnField a) = a := by
  apply BitVec.eq_of_toNat_eq
  rw [addrOperand_toNat, nnnField, BitVec.extractLsb'_toNat, Nat.shiftRight_zero]
  exact Nat.mod_eq_of_lt ha

/-- A parked machine fetches a jump to `pc`. -/
theorem State.Parked.decode_fetchBytes {s : State} (h : s.Parked) :
    decode s.fetchBytes = .ok (.jp (nnnField s.pc), []) := by
  obtain ⟨⟨-, -, hpc⟩, hbytes⟩ := h
  have hword := decode_bytes (0x1000#16 ||| s.pc) []
  rw [jumpWord_eq (by omega), decodeWord_jp, List.append_nil] at hword
  rw [hbytes, jumpWord_eq (by omega), hword]

/-- A parked machine's step is the ticks alone. -/
theorem State.Parked.step_eq {s : State} (h : s.Parked) : step s = .next s.beginStep := by
  obtain ⟨hs, -⟩ := id h
  obtain ⟨-, -, hpc⟩ := id hs
  have htarget : addrOperand (nnnField s.pc) = s.beginStep.pc := addrOperand_nnnField (by omega)
  rw [step_of_decode hs h.decode_fetchBytes, exec_jp, htarget, State.jump_pc_self]

/-- Settles O59: the state after the step is the one the CPU acts in, which differs in the timers, counted down, and in the
model's own count. -/
theorem parkedStaysParked : Obligations.ParkedStaysParked := by
  unfold Obligations.ParkedStaysParked
  exact fun s h => ⟨s.beginStep, h.step_eq, h, rfl, countDownBy_le _ s.dt, countDownBy_le _ s.st⟩

end Sys2Proof.Machine
end

-- The host's side: reset, the refused loads, the font and the entry state (R280 to R292).
section
namespace Sys2Proof.Machine

/-- Settles O21: a reset event leaves what power-on leaves, all of it 0, but for the model's own count. -/
theorem resetLeavesZeros : Obligations.ResetLeavesZeros := by
  unfold Obligations.ResetLeavesZeros
  intro s t ht
  have hfields : t = { State.reset with draws := t.draws } := by rcases ht with rfl | rfl <;> rfl
  rw [hfields]
  refine ⟨fun x => ?regs, rfl, rfl, rfl, fun k => ?slots, rfl, rfl, fun a => rfl, fun px py => ?pixels, rfl, rfl⟩
  case regs => exact Vector.getElem_replicate x.isLt
  case slots => exact Vector.getElem_replicate k.isLt
  case pixels => exact Framebuffer.pixel_clear px py

/-- Settles O23: the running machine is looked at first, then the ROM's length (log 15). -/
theorem loadsRefused : Obligations.LoadsRefused := by
  unfold Obligations.LoadsRefused
  intro s rom
  refine ⟨fun hrun => ⟨if_pos hrun, if_pos hrun⟩, fun hrun hlen => ?tooLong⟩
  case tooLong =>
    have hnotRunning : s.run ≠ .running := by simp [hrun]
    have htooLong : rom.length > Config.maxRom := hlen
    rw [State.loadProgram, if_neg hnotRunning, if_pos htooLong]
    rfl

/-- The answer of LoadFont on a machine that is not loaded (R289). -/
theorem State.loadFont_of_notLoaded {s : State} (hrun : s.run = .notLoaded) :
    s.loadFont = .next { s with mem := Memory.writeBytes s.mem Config.fontBase.val Config.fontTable.toList } :=
  if_neg (by simp [hrun])

/-- A byte of the font after the load. -/
theorem Memory.read_font_inside (m : Memory) (k : Fin 80) :
    Memory.read (Memory.writeBytes m Config.fontBase.val Config.fontTable.toList) (Config.fontBase.val + k.val) =
      Config.fontTable[k.val] := by
  rw [Memory.read_writeBytes_inside _ _ _ k.val (by simp)]
  exact Vector.getElem_toList _

/-- The font load writes its 80 bytes only. -/
theorem Memory.read_font_outside (m : Memory) {a : Nat} (ha : a < Config.fontBase.val ∨ Config.fontBase.val + 80 ≤ a) :
    Memory.read (Memory.writeBytes m Config.fontBase.val Config.fontTable.toList) a = Memory.read m a :=
  Memory.read_writeBytes_outside _ _ _ _ (by simpa using ha)

/-- The font ends at or below PROGRAM_START, by the type of FONT_BASE (D2). -/
theorem fontBase_add_le : Config.fontBase.val + 80 ≤ Config.programStart := by
  have hbase := Config.fontBase.isLt
  change _ ≤ 512
  omega

/-- Settles O24: inside and outside the font by the two laws of its bytes; the frame is that of the load. -/
theorem loadFontCopiesTable : Obligations.LoadFontCopiesTable := by
  unfold Obligations.LoadFontCopiesTable
  intro s hrun
  exact ⟨_, State.loadFont_of_notLoaded hrun, Memory.read_font_inside s.mem, fun _ => Memory.read_font_outside s.mem,
    fontBase_add_le, rfl⟩

/-- Settles O25: the two loads write disjoint ranges of a memory of zeros, and everything else is as reset left it. -/
theorem entryState : Obligations.EntryState := by
  unfold Obligations.EntryState
  intro rom hlen
  obtain ⟨hregs, -, -, -, -, -, -, -, hpixels, -, -⟩ := resetLeavesZeros State.reset State.reset (.inl rfl)
  refine ⟨_, _, State.loadFont_of_notLoaded rfl, State.loadProgram_of_fits rfl hlen, rfl, ⟨rfl, rfl, ?start⟩, hregs,
    rfl, rfl, rfl, rfl, hpixels, fun k => ?font, fun k hk => ?program, fun a hfont hprogram => ?elsewhere⟩
  case start => exact (by decide : (0x200#16).toNat ≤ 4094)
  case font =>
    have hbelow : Config.fontBase.val + k.val < Config.programStart := by have := fontBase_add_le; omega
    exact (Memory.read_writeBytes_outside rom _ _ _ (.inl hbelow)).trans (Memory.read_font_inside _ k)
  case program => exact Memory.read_writeBytes_inside rom _ _ k hk
  case elsewhere =>
    exact (Memory.read_writeBytes_outside rom _ _ _ hprogram).trans (Memory.read_font_outside _ hfont)

end Sys2Proof.Machine
end

-- CALL and RET where the stack has room (R151, R153), and JP V0 (R158).
section
namespace Sys2Proof.Machine

/-- The stack pointer after a pop of a stack that is not empty. -/
theorem sp_sub_one_toNat {b : Byte} (h : b.toNat ≠ 0) : (b - 1#8).toNat = b.toNat - 1 := by
  rw [BitVec.toNat_sub, BitVec.toNat_ofNat]
  omega

/-- The stack pointer after a push on a free slot. -/
theorem sp_add_one_toNat {b : Byte} (h : b.toNat < 16) : (b + 1#8).toNat = b.toNat + 1 := by
  rw [BitVec.toNat_add, BitVec.toNat_ofNat]
  omega

/-- Settles O33: `pc`, `SP` and the frame are those of `exec_ret_of_pos`. -/
theorem retPopsReturnAddress : Obligations.RetPopsReturnAddress := by
  unfold Obligations.RetPopsReturnAddress
  exact fun s hslot hdepth => ⟨_, exec_ret_of_pos hslot hdepth, rfl, sp_sub_one_toNat hdepth, rfl⟩

/-- Settles O36: `pc`, `SP`, the slot written and the frame are those of `exec_call_of_free`. -/
theorem callPushesReturnAddress : Obligations.CallPushesReturnAddress := by
  unfold Obligations.CallPushesReturnAddress
  intro s nnn hfree
  refine ⟨_, exec_call_of_free nnn hfree, addrOperand_toNat nnn, sp_add_one_toNat hfree, fun k => ?slots, rfl⟩
  case slots =>
    change (s.stack.set s.sp.toNat (s.pc + 2#16) hfree)[k.val] = _
    rw [Vector.getElem_set]
    simp only [eq_comm]

/-- Settles O28: by O36 the CALL leaves its return address in the slot below the new `SP`, where by O33 the RET finds it; the pop
undoes the push on `SP`. -/
theorem callThenRetReturns : Obligations.CallThenRetReturns := by
  unfold Obligations.CallThenRetReturns
  intro s nnn hfree
  obtain ⟨t, hcall, hpc, hsp, hslots, hframe⟩ := callPushesReturnAddress s nnn hfree
  obtain ⟨u, hret, hback, hpop, huframe⟩ := retPopsReturnAddress t (by omega) (by omega)
  have hsame : u.sp = s.sp := BitVec.eq_of_toNat_eq (by omega)
  have hslot := hslots ⟨t.sp.toNat - 1, by omega⟩
  refine ⟨t, u, hcall, hpc, hret, ?address, ?frame⟩
  case address => exact hback.trans (hslot.trans (if_pos (by change t.sp.toNat - 1 = s.sp.toNat; omega)))
  case frame =>
    rw [huframe, hframe]
    simp only [hsame]

/-- The answer of JP V0: the jump to the sum. -/
theorem exec_jpV0 (s : State) (nnn : Addr) :
    exec (.jpV0 nnn) s = .next (s.jump (addrOperand nnn + s.regWord 0#4)) := rfl

/-- Settles O39: the sum of the two words is the sum of their numbers. -/
theorem jpV0AddsRegisterZero : Obligations.JpV0AddsRegisterZero := by
  unfold Obligations.JpV0AddsRegisterZero
  exact fun s nnn => ⟨_, exec_jpV0 s nnn, jpV0_target_toNat s nnn, rfl⟩

end Sys2Proof.Machine
end

-- The ALU and RND: one register written, or a register and then the flag (R172, R176 to R184).
section
namespace Sys2Proof.Machine

/-- The answer of OR: the bytes combined, in `V[x]`. -/
theorem exec_orReg (s : State) (x y : RegIdx) :
    exec (.orReg x y) s = .next (s.setReg x (s.reg x ||| s.reg y)).advance := rfl

/-- The answer of AND: the bytes combined, in `V[x]`. -/
theorem exec_andReg (s : State) (x y : RegIdx) :
    exec (.andReg x y) s = .next (s.setReg x (s.reg x &&& s.reg y)).advance := rfl

/-- The answer of XOR: the bytes combined, in `V[x]`. -/
theorem exec_xorReg (s : State) (x y : RegIdx) :
    exec (.xorReg x y) s = .next (s.setReg x (s.reg x ^^^ s.reg y)).advance := rfl

/-- The answer of RND: the byte drawn in this step under the mask, in `V[x]`. -/
theorem exec_rnd (s : State) (x : RegIdx) (nn : Byte) :
    exec (.rnd x nn) s = .next (s.setReg x (Config.randomByte s.draws &&& nn)).advance := rfl

/-- Settles O42: each is one write of `V[x]`, and the operation on bytes is the operation on each bit. -/
theorem bitwiseOpsLeaveFlag : Obligations.BitwiseOpsLeaveFlag := by
  unfold Obligations.BitwiseOpsLeaveFlag
  intro s x y
  refine ⟨?or, ?and, ?xor⟩
  case or =>
    refine ⟨_, exec_orReg s x y, fun j => ?_, fun _ => s.reg_setReg_advance_of_ne _, rfl, s.setReg_advance_frame x _⟩
    rw [State.reg_setReg_advance_same, BitVec.getLsbD_or]
  case and =>
    refine ⟨_, exec_andReg s x y, fun j => ?_, fun _ => s.reg_setReg_advance_of_ne _, rfl, s.setReg_advance_frame x _⟩
    rw [State.reg_setReg_advance_same, BitVec.getLsbD_and]
  case xor =>
    refine ⟨_, exec_xorReg s x y, fun j => ?_, fun _ => s.reg_setReg_advance_of_ne _, rfl, s.setReg_advance_frame x _⟩
    rw [State.reg_setReg_advance_same, BitVec.getLsbD_xor]

/-- Settles O47: the AND of O42 with the byte drawn in this step. -/
theorem rndMasksFreeByte : Obligations.RndMasksFreeByte := by
  unfold Obligations.RndMasksFreeByte
  intro s x nn
  refine ⟨_, exec_rnd s x nn, fun j => ?_, fun _ => s.reg_setReg_advance_of_ne _, rfl, s.setReg_advance_frame x _⟩
  rw [State.reg_setReg_advance_same, BitVec.getLsbD_and]

/-- The result of a flag-writing instruction stands unless the flag takes its place (R172). -/
theorem State.reg_writeResultThenFlag_result (s : State) {x : RegIdx} (r : Byte) (c : Bool) (hx : x ≠ VF) :
    (s.writeResultThenFlag x r c).reg x = r := by
  rw [State.reg_writeResultThenFlag, if_neg hx, if_pos rfl]

/-- VF holds the flag, whatever `x` is (R172, D11). -/
theorem State.reg_writeResultThenFlag_flag (s : State) (x : RegIdx) (r : Byte) (c : Bool) :
    (s.writeResultThenFlag x r c).reg VF = flagByte c := by
  rw [State.reg_writeResultThenFlag, if_pos rfl]

/-- Every register but `V[x]` and VF is as before. -/
theorem State.reg_writeResultThenFlag_of_ne (s : State) {x k : RegIdx} (r : Byte) (c : Bool) (hk : k ≠ x) (hF : k ≠ VF) :
    (s.writeResultThenFlag x r c).reg k = s.reg k := by
  rw [State.reg_writeResultThenFlag, if_neg hF, if_neg hk]

/-- The end of a flag-writing instruction touches the registers and `pc`, and no other field. -/
theorem State.writeResultThenFlag_frame (s : State) (x : RegIdx) (r : Byte) (c : Bool) :
    s.writeResultThenFlag x r c =
      { s with v := (s.writeResultThenFlag x r c).v, pc := (s.writeResultThenFlag x r c).pc } := rfl

/-- The answer of ADD Vx, Vy: the sum in `V[x]`, then the carry in VF. -/
theorem exec_addReg (s : State) (x y : RegIdx) : exec (.addReg x y) s =
    .next (s.writeResultThenFlag x (s.reg x + s.reg y) (carry (s.reg x) (s.reg y))) := rfl

/-- The answer of SUB: the difference in `V[x]`, then no borrow in VF. -/
theorem exec_subReg (s : State) (x y : RegIdx) : exec (.subReg x y) s =
    .next (s.writeResultThenFlag x (s.reg x - s.reg y) (noBorrow (s.reg x) (s.reg y))) := rfl

/-- The answer of SUBN: the reversed difference in `V[x]`, then no borrow in VF. -/
theorem exec_subnReg (s : State) (x y : RegIdx) : exec (.subnReg x y) s =
    .next (s.writeResultThenFlag x (s.reg y - s.reg x) (noBorrow (s.reg y) (s.reg x))) := rfl

/-- The answer of SHR: the half in `V[x]`, then the low bit in VF. -/
theorem exec_shr (s : State) (x y : RegIdx) : exec (.shr x y) s =
    .next (s.writeResultThenFlag x (s.reg x >>> 1) (shiftedOutRight (s.reg x))) := rfl

/-- The answer of SHL: the double in `V[x]`, then the high bit in VF. -/
theorem exec_shl (s : State) (x y : RegIdx) : exec (.shl x y) s =
    .next (s.writeResultThenFlag x (s.reg x <<< 1) (shiftedOutLeft (s.reg x))) := rfl

/-- The flag of a condition on numbers. -/
theorem flagByte_decide (p : Prop) [Decidable p] : flagByte (decide p) = if p then 1#8 else 0#8 := by
  simp only [flagByte, decide_eq_true_eq]

/-- The difference of two bytes is the difference of their numbers modulo 256. -/
theorem byte_sub_toNat (a b : Byte) : ((a - b).toNat : Int) = ((a.toNat : Int) - b.toNat) % 256 := by
  rw [BitVec.toNat_sub]
  omega

/-- The flag of one bit is the bit. -/
theorem flagByte_getLsbD_toNat (a : Byte) (j : Nat) : (flagByte (a.getLsbD j)).toNat = a.toNat / 2 ^ j % 2 := by
  rw [← Nat.toNat_testBit]
  change (flagByte (a.toNat.testBit j)).toNat = _
  cases a.toNat.testBit j <;> rfl

/-- Settles O43: the carry is the condition on the sum, and the flag is written last. -/
theorem addSetsCarry : Obligations.AddSetsCarry := by
  unfold Obligations.AddSetsCarry
  intro s x y
  refine ⟨_, exec_addReg s x y, fun hx => ?sum, ?flag, fun _ => s.reg_writeResultThenFlag_of_ne _ _, rfl,
    s.writeResultThenFlag_frame x _ _⟩
  case sum => rw [s.reg_writeResultThenFlag_result _ _ hx, BitVec.toNat_add]
  case flag => rw [State.reg_writeResultThenFlag_flag, carry, flagByte_decide]

/-- Settles O44: no borrow is the order of the operands, and the flag is written last. -/
theorem subSetsNoBorrow : Obligations.SubSetsNoBorrow := by
  unfold Obligations.SubSetsNoBorrow
  intro s x y
  refine ⟨_, exec_subReg s x y, fun hx => ?difference, ?flag, fun _ => s.reg_writeResultThenFlag_of_ne _ _, rfl,
    s.writeResultThenFlag_frame x _ _⟩
  case difference => rw [s.reg_writeResultThenFlag_result _ _ hx, byte_sub_toNat]
  case flag => rw [State.reg_writeResultThenFlag_flag, noBorrow, flagByte_decide]

/-- Settles O45: as O44 with the operands exchanged. -/
theorem subnSetsNoBorrow : Obligations.SubnSetsNoBorrow := by
  unfold Obligations.SubnSetsNoBorrow
  intro s x y
  refine ⟨_, exec_subnReg s x y, fun hx => ?difference, ?flag, fun _ => s.reg_writeResultThenFlag_of_ne _ _, rfl,
    s.writeResultThenFlag_frame x _ _⟩
  case difference => rw [s.reg_writeResultThenFlag_result _ _ hx, byte_sub_toNat]
  case flag => rw [State.reg_writeResultThenFlag_flag, noBorrow, flagByte_decide]

/-- Settles O46: a shift by one halves or doubles the number, and the flag is its lowest or highest bit. -/
theorem shiftsInPlace : Obligations.ShiftsInPlace := by
  unfold Obligations.ShiftsInPlace
  intro s x y
  have hbyte := (s.reg x).isLt
  constructor
  · refine ⟨_, exec_shr s x y, fun hx => ?half, ?low, fun _ => s.reg_writeResultThenFlag_of_ne _ _, rfl,
      s.writeResultThenFlag_frame x _ _⟩
    case half =>
      rw [s.reg_writeResultThenFlag_result _ _ hx, BitVec.toNat_ushiftRight, Nat.shiftRight_eq_div_pow, Nat.pow_one]
    case low => rw [State.reg_writeResultThenFlag_flag, shiftedOutRight, flagByte_getLsbD_toNat, Nat.pow_zero, Nat.div_one]
  · refine ⟨_, exec_shl s x y, fun hx => ?double, ?high, fun _ => s.reg_writeResultThenFlag_of_ne _ _, rfl,
      s.writeResultThenFlag_frame x _ _⟩
    case double =>
      rw [s.reg_writeResultThenFlag_result _ _ hx, BitVec.toNat_shiftLeft, Nat.shiftLeft_eq, Nat.pow_one]
    case high =>
      rw [State.reg_writeResultThenFlag_flag, shiftedOutLeft, flagByte_getLsbD_toNat]
      omega

end Sys2Proof.Machine
end

-- The address register: ADD I and LD F (R202, R203).
section
namespace Sys2Proof.Machine

/-- The answer of ADD I, Vx: the sum in `I`. -/
theorem exec_addI (s : State) (x : RegIdx) : exec (.addI x) s = .next (s.setI (s.iReg + s.regWord x)).advance := rfl

/-- The answer of LD F, Vx: the address of the glyph of the low nibble in `I`. -/
theorem exec_ldF (s : State) (x : RegIdx) :
    exec (.ldF x) s = .next (s.setI (glyphAddress (lowNibble (s.reg x)))).advance := rfl

/-- A byte as a 16-bit addend keeps its value. -/
theorem State.regWord_toNat (s : State) (x : RegIdx) : (s.regWord x).toNat = (s.reg x).toNat :=
  BitVec.toNat_setWidth_of_le (by decide)

/-- Settles O49: the sum of two words is the sum of their numbers modulo 65536; VF is in the frame. -/
theorem addIWrapsAt16Bits : Obligations.AddIWrapsAt16Bits := by
  unfold Obligations.AddIWrapsAt16Bits
  intro s x
  refine ⟨_, exec_addI s x, ?sum, rfl, s.setI_advance_frame _⟩
  case sum => rw [State.advance_iReg, State.setI_iReg, BitVec.toNat_add, State.regWord_toNat]

theorem lowNibble_eq_mod (b : Byte) : lowNibble b = b.toNat % 16 := Nat.and_two_pow_sub_one_eq_mod b.toNat 4

/-- The glyph's address is below 65536: the font lies below PROGRAM_START (D2). -/
theorem glyphAddress_toNat {d : Nat} (hd : d < 16) : (glyphAddress d).toNat = Config.fontBase.val + 5 * d := by
  have hbase := Config.fontBase.isLt
  exact Nat.mod_eq_of_lt (by change Config.fontBase.val + 5 * d < 65536; omega)

/-- Settles O50: the address of the glyph of the low nibble, which is the value modulo 16. -/
theorem ldFAddressesGlyph : Obligations.LdFAddressesGlyph := by
  unfold Obligations.LdFAddressesGlyph
  intro s x
  refine ⟨_, exec_ldF s x, ?address, rfl, s.setI_advance_frame _⟩
  case address =>
    rw [State.advance_iReg, State.setI_iReg, lowNibble_eq_mod, glyphAddress_toNat (Nat.mod_lt _ (by decide))]

end Sys2Proof.Machine
end

-- The memory instructions inside and outside memory (R204 to R206, R244).
section
namespace Sys2Proof.Machine

theorem inMemory_eq_false {a n : Nat} (h0 : n ≠ 0) (h : 4096 < a + n) : inMemory a n = false :=
  Bool.eq_false_iff.mpr fun hin => by have := (inMemory_iff a n).mp hin; omega

theorem inMemory_eq_true {a n : Nat} (h : n = 0 ∨ a + n ≤ 4096) : inMemory a n = true := (inMemory_iff a n).mpr h

/-- The answer of LD B with its three addresses inside memory. -/
theorem exec_ldB_of_inside {s : State} (x : RegIdx) (h : s.address + 3 ≤ 4096) :
    exec (.ldB x) s = .next { s with mem := Memory.writeBytes s.mem s.address (bcdDigits (s.reg x)) }.advance := by
  rcases execLdB_cases x s with ⟨hout, -⟩ | ⟨-, e⟩
  · cases hout.symm.trans (inMemory_eq_true (.inr h))
  · exact e

/-- The answer of LD [I],Vx with its range inside memory. -/
theorem exec_ldMemRegs_of_inside {s : State} (x : RegIdx) (h : s.address + (x.toNat + 1) ≤ 4096) :
    exec (.ldMemRegs x) s = .next { s with mem := Memory.writeBytes s.mem s.address (s.regsUpTo x) }.advance := by
  rcases execLdMemRegs_cases x s with ⟨hout, -⟩ | ⟨-, e⟩
  · cases hout.symm.trans (inMemory_eq_true (.inr h))
  · exact e

/-- The answer of LD Vx,[I] with its range inside memory. -/
theorem exec_ldRegsMem_of_inside {s : State} (x : RegIdx) (h : s.address + (x.toNat + 1) ≤ 4096) :
    exec (.ldRegsMem x) s =
      .next { s with v := loadRegs s.v 0 (Memory.readBytes s.mem s.address (x.toNat + 1)) }.advance := by
  rcases execLdRegsMem_cases x s with ⟨hout, -⟩ | ⟨-, e⟩
  · cases hout.symm.trans (inMemory_eq_true (.inr h))
  · exact e

/-- Settles O32: out of range, the second way to end of each of the four is impossible. -/
theorem memoryInstructionsOutOfBounds : Obligations.MemoryInstructionsOutOfBounds := by
  unfold Obligations.MemoryInstructionsOutOfBounds
  intro s x y n
  have haddress : s.address = s.iReg.toNat := rfl
  refine ⟨fun hrows hout => ?drw, fun hout => ?ldB, fun hout => ⟨?ldMemRegs, ?ldRegsMem⟩⟩
  case drw =>
    rcases execDrw_cases x y n s with ⟨-, e⟩ | ⟨hin, -⟩
    · exact e
    · cases hin.symm.trans (inMemory_eq_false (by omega) (by omega))
  case ldB =>
    rcases execLdB_cases x s with ⟨-, e⟩ | ⟨hin, -⟩
    · exact e
    · cases hin.symm.trans (inMemory_eq_false (by omega) (by omega))
  case ldMemRegs =>
    rcases execLdMemRegs_cases x s with ⟨-, e⟩ | ⟨hin, -⟩
    · exact e
    · cases hin.symm.trans (inMemory_eq_false (by omega) (by omega))
  case ldRegsMem =>
    rcases execLdRegsMem_cases x s with ⟨-, e⟩ | ⟨hin, -⟩
    · exact e
    · cases hin.symm.trans (inMemory_eq_false (by omega) (by omega))

/-- A number below 256 in a byte of its own keeps its value. -/
theorem byte_ofNat_toNat {n : Nat} (h : n < 256) : (BitVec.ofNat 8 n).toNat = n := Nat.mod_eq_of_lt h

/-- Settles O51: the three bytes stored are the three digits, each below 256. -/
theorem ldBStoresDecimalDigits : Obligations.LdBStoresDecimalDigits := by
  unfold Obligations.LdBStoresDecimalDigits
  intro s x hin
  have haddress : s.address = s.iReg.toNat := rfl
  have hbyte := (s.reg x).isLt
  have hlen : (bcdDigits (s.reg x)).length = 3 := rfl
  have hstored := Memory.read_writeBytes_inside (bcdDigits (s.reg x)) s.mem s.address
  refine ⟨_, exec_ldB_of_inside x (by omega), ?hundreds, ?tens, ?ones,
    fun a ha => Memory.read_writeBytes_outside _ _ _ a ha, rfl, rfl⟩
  case hundreds => exact (congrArg BitVec.toNat (hstored 0 (by omega))).trans (byte_ofNat_toNat (by omega))
  case tens => exact (congrArg BitVec.toNat (hstored 1 (by omega))).trans (byte_ofNat_toNat (by omega))
  case ones => exact (congrArg BitVec.toNat (hstored 2 (by omega))).trans (byte_ofNat_toNat (by omega))

/-- Settles O52: the bytes stored are the registers up to `x`, one after the other. -/
theorem registerDump : Obligations.RegisterDump := by
  unfold Obligations.RegisterDump
  intro s x hin
  have haddress : s.address = s.iReg.toNat := rfl
  have hlen := s.regsUpTo_length x
  refine ⟨_, exec_ldMemRegs_of_inside x (by omega), fun k hk => ?inside,
    fun a ha => ?outside, rfl, rfl⟩
  case inside =>
    have hk : k.toNat < (s.regsUpTo x).length := by omega
    exact (Memory.read_writeBytes_inside _ s.mem _ _ hk).trans (s.regsUpTo_getElem x k hk)
  case outside => exact Memory.read_writeBytes_outside _ s.mem _ a (by omega)

/-- Settles O53: register `k` up to `x` receives byte `k` of those read, any other keeps its value. -/
theorem registerLoad : Obligations.RegisterLoad := by
  unfold Obligations.RegisterLoad
  intro s x hin
  have haddress : s.address = s.iReg.toNat := rfl
  have hlen := Memory.readBytes_length s.mem s.address (x.toNat + 1)
  refine ⟨_, exec_ldRegsMem_of_inside x (by omega), fun k => ?regs, rfl, rfl⟩
  case regs =>
    change (loadRegs s.v 0 (Memory.readBytes s.mem s.address (x.toNat + 1)))[k.toNat]'k.isLt = _
    rw [loadRegs_getElem]
    by_cases hk : k.toNat ≤ x.toNat
    · rw [dif_pos (by omega), if_pos hk, Memory.readBytes_getElem, Nat.sub_zero]
      rfl
    · rw [dif_neg (by omega), if_neg hk]
      rfl

end Sys2Proof.Machine
end

-- The keypad instructions (R221 to R223).
section
namespace Sys2Proof.Machine

/-- Settles O55: a value above 15 leaves only the faulting way to end. -/
theorem keyNumberOutOfBounds : Obligations.KeyNumberOutOfBounds := by
  unfold Obligations.KeyNumberOutOfBounds
  intro s x hkey
  constructor
  · rcases execSkp_cases x s with ⟨-, e⟩ | ⟨hlow, -⟩
    · exact e
    · omega
  · rcases execSknp_cases x s with ⟨-, e⟩ | ⟨hlow, -⟩
    · exact e
    · omega

/-- The answer of SKP on a key number: a skip on the keypad's answer. -/
theorem exec_skp_of_key {s : State} {x : RegIdx} (hkey : (s.reg x).toNat ≤ 15) :
    exec (.skp x) s = .next (s.skipIf (Config.keyDown s.draws (BitVec.ofNat 4 (s.reg x).toNat))) := by
  rw [BitVec.ofNat_toNat]
  rcases execSkp_cases x s with ⟨hhigh, -⟩ | ⟨-, e⟩
  · omega
  · exact e

/-- The answer of SKNP on a key number: a skip on the negated answer. -/
theorem exec_sknp_of_key {s : State} {x : RegIdx} (hkey : (s.reg x).toNat ≤ 15) :
    exec (.sknp x) s = .next (s.skipIf (!Config.keyDown s.draws (BitVec.ofNat 4 (s.reg x).toNat))) := by
  rw [BitVec.ofNat_toNat]
  rcases execSknp_cases x s with ⟨hhigh, -⟩ | ⟨-, e⟩
  · omega
  · exact e

/-- Settles O54: where each skip goes, and the frame of a skip. -/
theorem skipsOnKey : Obligations.SkipsOnKey := by
  unfold Obligations.SkipsOnKey
  intro s x hkey
  refine ⟨⟨_, exec_skp_of_key hkey, rfl, s.skipIf_frame _⟩, ⟨_, exec_sknp_of_key hkey, ?target, s.skipIf_frame _⟩⟩
  case target => cases Config.keyDown s.draws (BitVec.ofNat 4 (s.reg x).toNat) <;> rfl

/-- A key number in a byte keeps its value. -/
theorem key_setWidth_toNat (k : Key) : (k.setWidth 8).toNat = k.toNat := BitVec.toNat_setWidth_of_le (by decide)

/-- Settles O56: the two ends of a key wait. -/
theorem keyWait : Obligations.KeyWait := by
  unfold Obligations.KeyWait
  intro s x
  rcases execLdVxK_cases x s with ⟨hnone, e⟩ | ⟨k, hsome, e⟩
  · exact ⟨_, e, fun _ => rfl, fun key hkey => by cases hnone.symm.trans hkey⟩
  · refine ⟨_, e, fun hnone => ?noEvent, fun key hkey => ?event⟩
    case noEvent => cases hnone.symm.trans hsome
    case event =>
      obtain rfl : k = key := Option.some.inj (hsome.symm.trans hkey)
      refine ⟨?key, fun _ => s.reg_setReg_advance_of_ne _, rfl, s.setReg_advance_frame x _⟩
      case key => rw [State.reg_setReg_advance_same, key_setWidth_toNat]

end Sys2Proof.Machine
end

-- DRW: each pixel against the sprite, and the collision (R142, R143).
section
namespace Sys2Proof.Machine

/-- The pixels a drawing has turned over. -/
abbrev PixelSet := Fin 64 → Fin 32 → Prop

/-- Column `col` of the sprite row `b`, drawn at `(x0, y0)` and `r` rows down, has an on bit over the pixel (R140, D17). -/
def ColumnOver (x0 y0 r : Nat) (b : Byte) (col : Nat) : PixelSet := fun px py =>
  b.getLsbD (7 - col) = true ∧ px.val = (x0 + col) % 64 ∧ py.val = (y0 + r) % 32

/-- `d` is `fb` with the pixels of `S` turned over, and its collision says whether one of them was on. -/
structure Drawn (fb : Framebuffer) (S : PixelSet) (d : Drawing) : Prop where
  pixel : ∀ px py, Framebuffer.pixel d.1 px py = true ↔ ¬ (Framebuffer.pixel fb px py = true ↔ S px py)
  collision : d.2 = true ↔ ∃ px py, Framebuffer.pixel fb px py = true ∧ S px py

/-- Before the first pixel nothing is turned over. -/
theorem drawn_nothing (fb : Framebuffer) : Drawn fb (fun _ _ => False) (fb, false) where
  pixel px py := by simp
  collision := by simp

/-- The set counts by its pixels. -/
theorem Drawn.congr {fb : Framebuffer} {S T : PixelSet} {d : Drawing} (h : Drawn fb S d) (hST : ∀ px py, S px py ↔ T px py) :
    Drawn fb T d := by
  obtain rfl : S = T := funext₂ fun px py => propext (hST px py)
  exact h

/-- The pixel under an on bit is turned over. -/
theorem drawPixel_pixel_of_over {x0 y0 r : Nat} {b : Byte} {col : Nat} {px : Fin 64} {py : Fin 32} (d : Drawing)
    (h : ColumnOver x0 y0 r b col px py) :
    Framebuffer.pixel (drawPixel x0 y0 r b d col).1 px py = !Framebuffer.pixel d.1 px py :=
  (drawPixel_pixel ..).trans (if_pos h)

/-- Every other pixel is as it was. -/
theorem drawPixel_pixel_of_not_over {x0 y0 r : Nat} {b : Byte} {col : Nat} {px : Fin 64} {py : Fin 32} (d : Drawing)
    (h : ¬ ColumnOver x0 y0 r b col px py) :
    Framebuffer.pixel (drawPixel x0 y0 r b d col).1 px py = Framebuffer.pixel d.1 px py :=
  (drawPixel_pixel ..).trans (if_neg h)

/-- The collision after one column, in terms of the pixel under it. -/
theorem drawPixel_collision_iff (x0 y0 r : Nat) (b : Byte) (d : Drawing) (col : Nat) :
    (drawPixel x0 y0 r b d col).2 = true ↔
      d.2 = true ∨ ∃ px py, Framebuffer.pixel d.1 px py = true ∧ ColumnOver x0 y0 r b col px py := by
  rw [drawPixel_collision, Bool.or_eq_true, Bool.and_eq_true]
  refine or_congr_right ⟨?found, ?made⟩
  case found => exact fun ⟨hbit, hon⟩ => ⟨_, _, hon, hbit, rfl, rfl⟩
  case made =>
    rintro ⟨px, py, hon, hbit, hx, hy⟩
    obtain rfl : px = ⟨(x0 + col) % 64, Nat.mod_lt _ (by decide)⟩ := Fin.ext hx
    obtain rfl : py = ⟨(y0 + r) % 32, Nat.mod_lt _ (by decide)⟩ := Fin.ext hy
    exact ⟨hbit, hon⟩

/-- A pixel outside the set is as it was. -/
theorem Drawn.pixel_of_not_mem {fb : Framebuffer} {S : PixelSet} {d : Drawing} (h : Drawn fb S d) {px : Fin 64} {py : Fin 32}
    (hS : ¬ S px py) : Framebuffer.pixel d.1 px py = Framebuffer.pixel fb px py :=
  Bool.eq_iff_iff.mpr (by simpa [hS] using h.pixel px py)

/-- Drawing one column turns over the pixel under it, which must not have been turned over before. -/
theorem Drawn.drawPixel {fb : Framebuffer} {S : PixelSet} {d : Drawing} {x0 y0 r : Nat} {b : Byte} {col : Nat}
    (h : Drawn fb S d) (hnew : ∀ px py, ColumnOver x0 y0 r b col px py → ¬ S px py) :
    Drawn fb (fun px py => S px py ∨ ColumnOver x0 y0 r b col px py) (drawPixel x0 y0 r b d col) where
  pixel px py := by
    by_cases hover : ColumnOver x0 y0 r b col px py
    · rw [drawPixel_pixel_of_over d hover, h.pixel_of_not_mem (hnew px py hover)]
      simp [hover]
    · rw [drawPixel_pixel_of_not_over d hover, h.pixel px py]
      simp [hover]
  collision := by
    have hunder : ∀ px py, (Framebuffer.pixel d.1 px py = true ∧ ColumnOver x0 y0 r b col px py) ↔
        (Framebuffer.pixel fb px py = true ∧ ColumnOver x0 y0 r b col px py) := fun px py =>
      and_congr_left fun hover => by rw [h.pixel_of_not_mem (hnew px py hover)]
    simp only [drawPixel_collision_iff, h.collision, hunder, and_or_left, exists_or]

/-- Row `r` of the sprite has an on bit over the pixel. -/
def RowOver (x0 y0 r : Nat) (b : Byte) : PixelSet := fun px py => ∃ c < 8, ColumnOver x0 y0 r b c px py

/-- The first `n` columns of a row; two of the eight columns never share a pixel, also where they wrap. -/
theorem Drawn.drawColumns {fb : Framebuffer} {S : PixelSet} {d : Drawing} {x0 y0 r : Nat} {b : Byte} (h : Drawn fb S d)
    (hnew : ∀ px py, RowOver x0 y0 r b px py → ¬ S px py) (n : Nat) (hn : n ≤ 8) :
    Drawn fb (fun px py => S px py ∨ ∃ c < n, ColumnOver x0 y0 r b c px py)
      ((List.range n).foldl (Machine.drawPixel x0 y0 r b) d) := by
  induction n with
  | zero => simpa using h
  | succ n ih =>
    rw [List.range_succ, List.foldl_concat]
    refine ((ih (by omega)).drawPixel fun px py hover => ?disjoint).congr fun px py => ?set
    case disjoint =>
      rintro (hS | ⟨c, hc, -, hcx, -⟩)
      · exact hnew px py ⟨n, by omega, hover⟩ hS
      · obtain ⟨-, hnx, -⟩ := hover
        omega
    case set => rw [or_assoc, Nat.exists_lt_succ_right]

/-- One sprite row is its eight columns. -/
theorem Drawn.drawRow {fb : Framebuffer} {S : PixelSet} {d : Drawing} {x0 y0 r : Nat} {b : Byte} (h : Drawn fb S d)
    (hnew : ∀ px py, RowOver x0 y0 r b px py → ¬ S px py) :
    Drawn fb (fun px py => S px py ∨ RowOver x0 y0 r b px py) (drawRow x0 y0 r b d) :=
  h.drawColumns hnew 8 le_rfl

/-- The rows `bs`, the first of them row `r`, have an on bit over the pixel. -/
def RowsOver (x0 y0 r : Nat) (bs : List Byte) : PixelSet := fun px py =>
  ∃ j, ∃ hj : j < bs.length, RowOver x0 y0 (r + j) bs[j] px py

/-- The first row, or one of the rows below it. -/
theorem rowsOver_cons (x0 y0 r : Nat) (b : Byte) (bs : List Byte) (px : Fin 64) (py : Fin 32) :
    RowsOver x0 y0 r (b :: bs) px py ↔ RowOver x0 y0 r b px py ∨ RowsOver x0 y0 (r + 1) bs px py := by
  constructor
  · rintro ⟨j, hj, hrow⟩
    cases j with
    | zero => exact .inl hrow
    | succ j => exact .inr ⟨j, Nat.lt_of_succ_lt_succ hj, by rwa [Nat.add_right_comm]⟩
  · rintro (hrow | ⟨j, hj, hrow⟩)
    · exact ⟨0, Nat.succ_pos _, hrow⟩
    · exact ⟨j + 1, Nat.succ_lt_succ hj, by rwa [Nat.add_right_comm] at hrow⟩

/-- All the rows of a sprite; two of up to 32 rows never share a pixel, also where they wrap. -/
theorem Drawn.drawRows {fb : Framebuffer} {x0 y0 : Nat} (bs : List Byte) {S : PixelSet} {d : Drawing} {r : Nat}
    (h : Drawn fb S d) (hnew : ∀ px py, RowsOver x0 y0 r bs px py → ¬ S px py) (hlen : bs.length ≤ 32) :
    Drawn fb (fun px py => S px py ∨ RowsOver x0 y0 r bs px py) (drawRows x0 y0 bs r d) := by
  induction bs generalizing S d r with
  | nil => exact h.congr fun px py => by simp [RowsOver]
  | cons b bs ih =>
    have hlen : bs.length + 1 ≤ 32 := hlen
    have hrow := h.drawRow (r := r) (b := b) fun px py hover => hnew px py ((rowsOver_cons ..).mpr (.inl hover))
    refine (ih (r := r + 1) hrow (fun px py hrest => ?disjoint) (by omega)).congr fun px py => ?set
    case disjoint =>
      rintro (hS | ⟨c, hc, -, -, hy⟩)
      · exact hnew px py ((rowsOver_cons ..).mpr (.inr hrest)) hS
      · obtain ⟨j, hj, c', hc', -, -, hy'⟩ := hrest
        omega
    case set => rw [rowsOver_cons, or_assoc]

/-- The bytes DRW reads, as rows drawn at `V[x]`, `V[y]`, lie over the pixels that the sprite of the statements lies over. -/
theorem State.rowsOver_iff_spriteOver (s : State) (x y : RegIdx) (n : Nat) (px : Fin 64) (py : Fin 32) :
    RowsOver (s.reg x).toNat (s.reg y).toNat 0 (Memory.readBytes s.mem s.address n) px py ↔ s.SpriteOver x y n px py := by
  simp only [RowsOver, RowOver, ColumnOver, State.SpriteOver, Memory.readBytes_getElem, Memory.readBytes_length, Nat.zero_add,
    State.address]
  constructor
  · rintro ⟨r, hr, c, hc, hbit, hx, hy⟩
    exact ⟨r, c, hr, hc, hx, hy, hbit⟩
  · rintro ⟨r, c, hr, hc, hx, hy, hbit⟩
    exact ⟨r, hr, c, hc, hbit, hx, hy⟩

/-- The answer of DRW inside memory: the framebuffer with the sprite's pixels turned over, the collision in VF, the advance. -/
theorem exec_drw_of_inside {s : State} (x y : RegIdx) {n : Nat} (hn : n ≤ 15) (hin : n = 0 ∨ s.iReg.toNat + n - 1 ≤ 4095) :
    ∃ d, Drawn s.fb (s.SpriteOver x y n) d ∧
      exec (.drw x y n) s = .next ({ s with fb := d.1 }.setFlag d.2).advance := by
  have haddress : s.address = s.iReg.toNat := rfl
  rcases execDrw_cases x y n s with ⟨hout, -⟩ | ⟨-, d, hd, e⟩
  · cases hout.symm.trans (inMemory_eq_true (by omega))
  · refine ⟨d, ?drawn, e⟩
    case drawn =>
      subst hd
      have hlen : (Memory.readBytes s.mem s.address n).length ≤ 32 := by rw [Memory.readBytes_length]; omega
      refine ((drawn_nothing s.fb).drawRows _ (fun _ _ _ hno => hno) hlen).congr fun px py => ?_
      rw [false_or, State.rowsOver_iff_spriteOver]

/-- A pixel went from on to off just when a collision was found. -/
theorem Drawn.collision_iff {fb : Framebuffer} {S : PixelSet} {d : Drawing} (h : Drawn fb S d) :
    d.2 = true ↔ ∃ px py, Framebuffer.pixel fb px py = true ∧ Framebuffer.pixel d.1 px py = false := by
  rw [h.collision]
  refine exists_congr fun px => exists_congr fun py => and_congr_right fun hon => ?_
  rw [← Bool.not_eq_true, h.pixel px py]
  simp [hon]

/-- Settles O30: the pixels and the collision are those of the drawing; VF holds the collision, and the frame is that of the
answer. -/
theorem drwXorsSprite : Obligations.DrwXorsSprite := by
  unfold Obligations.DrwXorsSprite
  intro s x y n hn hin
  obtain ⟨d, hd, e⟩ := exec_drw_of_inside x y hn hin
  have hreg : ∀ k, ({ s with fb := d.1 }.setFlag d.2).advance.reg k = if k = VF then flagByte d.2 else s.reg k :=
    fun k => State.reg_setFlag { s with fb := d.1 } d.2 k
  refine ⟨_, e, hd.pixel, fun hcollision => ?on, fun hnone => ?off, fun k hk => ?other, rfl, rfl⟩
  case on => rw [hreg, if_pos rfl, hd.collision_iff.mpr hcollision]; rfl
  case off => rw [hreg, if_pos rfl, Bool.eq_false_iff.mpr (mt hd.collision_iff.mp hnone)]; rfl
  case other => rw [hreg, if_neg hk]

/-- Settles O31: by O30 each draw turns over the same pixels, and a pixel turned over twice is as it was. -/
theorem drwTwiceRestoresDisplay : Obligations.DrwTwiceRestoresDisplay := by
  unfold Obligations.DrwTwiceRestoresDisplay
  intro s x y n hn hin
  obtain ⟨t, ht, htpixel, -, -, -, -, hframe⟩ := drwXorsSprite s x y n hn hin
  have hi : t.iReg = s.iReg := by rw [hframe]
  have hmem : t.mem = s.mem := by rw [hframe]
  have hin' : n = 0 ∨ t.iReg.toNat + n - 1 ≤ 4095 := by rwa [hi]
  obtain ⟨u, hu, hupixel, -⟩ := drwXorsSprite { t with v := s.v } x y n hn hin'
  refine ⟨t, u, ht, hu, Framebuffer.ext_pixel _ _ fun px py => Bool.eq_iff_iff.mpr ?_⟩
  have hsame : { t with v := s.v }.SpriteOver x y n px py ↔ s.SpriteOver x y n px py := by
    unfold State.SpriteOver
    rw [hi, hmem]
    rfl
  have hfirst := htpixel px py
  have hsecond := hupixel px py
  rw [hsame] at hsecond
  change _ ↔ ¬ (t.pixel px py = true ↔ _) at hsecond
  change u.pixel px py = true ↔ s.pixel px py = true
  tauto

end Sys2Proof.Machine
end
